-- ==== Sys2Proof/Word.lean ====
section
/-! DEFINITION. The two word types of the block: bytes (registers, timers, memory cells, the PRNG state) and 16-bit
words (opcodes, PC, I, stack slots); spec/00_scope.md R9. -/

namespace Sys2Proof

/-- An 8-bit value: V0 to VF, SP, DT, ST, the PRNG state, a byte of memory (R9). -/
abbrev Byte := BitVec 8

/-- A 16-bit value: an opcode word, PC, I, a stack slot (R9). -/
abbrev Word := BitVec 16

end Sys2Proof
end

