-- ==== Sys2Proof/Machine/Flags.lean ====
section
/-! DEFINITION. Every computation of a flag value written to VF (spec/10_state.md R22; spec/41_registers_alu.md). -/

namespace Sys2Proof.Machine

/-- `true = 1`, `false = 0` (00_scope.md R13). -/
def flagByte (b : Bool) : Byte := if b then 1#8 else 0#8

/-- Carry out of bit 7: the exact sum exceeds 255 (R129). -/
def carryFlag (a b : Byte) : Byte := flagByte (decide (a.toNat + b.toNat > 255))

/-- 1 exactly when `a > b`, strictly (R130, R132). -/
def greaterFlag (a b : Byte) : Byte := flagByte (decide (a.toNat > b.toNat))

/-- The bit a right shift drops: `v & 1` (R131). -/
def lowBitFlag (v : Byte) : Byte := v &&& 1#8

/-- The bit a left shift drops: `(v >> 7) & 1` (R134). -/
def highBitFlag (v : Byte) : Byte := (v >>> 7) &&& 1#8

/-- The flag the bitwise operations leave: 0 (R126, R127, R128). -/
def resetFlag : Byte := 0#8

end Sys2Proof.Machine
end

