-- ==== Sys2Proof/Syntax.lean ====
section
/-! DEFINITION. The 35 instructions of spec/30_encoding.md R84 as a tagged variant with named operand fields (R88), and
the decoder's verdict on a word: an instruction of the set, or NOP (R81, R85). -/

namespace Sys2Proof

/-- One constructor for each row of the opcode map (R84), in the map's order. `x` and `y` select registers, `kk` is the
immediate byte, `n` the row count, `nnn` the 12-bit address (R72, R74). -/
inductive Instr where
  /-- `00E0` clear. -/
  | clear
  /-- `00EE` return. -/
  | ret
  /-- `0nnn` sys, for every word of family 0 but 00E0 and 00EE. -/
  | sys (nnn : BitVec 12)
  /-- `1nnn` jump. -/
  | jump (nnn : BitVec 12)
  /-- `2nnn` call. -/
  | call (nnn : BitVec 12)
  /-- `3xkk` skip-eq-imm. -/
  | skipEqImm (x : Fin 16) (kk : Byte)
  /-- `4xkk` skip-ne-imm. -/
  | skipNeImm (x : Fin 16) (kk : Byte)
  /-- `5xy0` skip-eq-reg. -/
  | skipEqReg (x y : Fin 16)
  /-- `6xkk` load-imm. -/
  | loadImm (x : Fin 16) (kk : Byte)
  /-- `7xkk` add-imm. -/
  | addImm (x : Fin 16) (kk : Byte)
  /-- `8xy0` copy. -/
  | copy (x y : Fin 16)
  /-- `8xy1` or. -/
  | orReg (x y : Fin 16)
  /-- `8xy2` and. -/
  | andReg (x y : Fin 16)
  /-- `8xy3` xor. -/
  | xorReg (x y : Fin 16)
  /-- `8xy4` add-reg. -/
  | addReg (x y : Fin 16)
  /-- `8xy5` sub. -/
  | sub (x y : Fin 16)
  /-- `8xy6` shr. -/
  | shr (x y : Fin 16)
  /-- `8xy7` subn. -/
  | subn (x y : Fin 16)
  /-- `8xyE` shl. -/
  | shl (x y : Fin 16)
  /-- `9xy0` skip-ne-reg. -/
  | skipNeReg (x y : Fin 16)
  /-- `Annn` load-index. -/
  | loadIndex (nnn : BitVec 12)
  /-- `Bnnn` jump-offset. -/
  | jumpOffset (nnn : BitVec 12)
  /-- `Cxkk` random. -/
  | random (x : Fin 16) (kk : Byte)
  /-- `Dxyn` draw. -/
  | draw (x y n : Fin 16)
  /-- `Ex9E` skip-key-down. -/
  | skipKeyDown (x : Fin 16)
  /-- `ExA1` skip-key-up. -/
  | skipKeyUp (x : Fin 16)
  /-- `Fx07` read-delay. -/
  | readDelay (x : Fin 16)
  /-- `Fx0A` wait-key. -/
  | waitKey (x : Fin 16)
  /-- `Fx15` write-delay. -/
  | writeDelay (x : Fin 16)
  /-- `Fx18` write-sound. -/
  | writeSound (x : Fin 16)
  /-- `Fx1E` add-index. -/
  | addIndex (x : Fin 16)
  /-- `Fx29` font-addr. -/
  | fontAddr (x : Fin 16)
  /-- `Fx33` bcd. -/
  | bcd (x : Fin 16)
  /-- `Fx55` store-regs. -/
  | storeRegs (x : Fin 16)
  /-- `Fx65` load-regs. -/
  | loadRegs (x : Fin 16)
  deriving DecidableEq, Repr

/-- What the decoder makes of a word: one of the 35 instructions, or NOP, its verdict on an unrecognised sub-opcode
(R81, R83, R85, R88). NOP is no row of the opcode map and so no constructor of `Instr` (log entry 11). -/
inductive Decoded where
  | instr (i : Instr)
  | nop
  deriving DecidableEq, Repr

end Sys2Proof
end

