-- ==== Sys2Proof/WellFormed.lean ====
section
/-! DEFINITION. Which terms of `Instr` are encodings (spec/30_encoding.md R76): the operand types admit every field
value, and the one check left is that `sys` is not one of the two words of family 0 that are other instructions. -/

namespace Sys2Proof

/-- R76, R84 row 3: `0nnn` is `sys` for every `nnn` but 0x0E0 (clear) and 0x0EE (return). -/
def sysTargetEncodable (nnn : BitVec 12) : Bool :=
  nnn != 0x0E0#12 && nnn != 0x0EE#12

/-- The instruction is one the opcode map can encode. -/
def Instr.wellFormed : Instr → Bool
  | .sys nnn => sysTargetEncodable nnn
  | .clear | .ret | .jump _ | .call _ | .skipEqImm _ _ | .skipNeImm _ _ | .skipEqReg _ _ | .loadImm _ _ | .addImm _ _
  | .copy _ _ | .orReg _ _ | .andReg _ _ | .xorReg _ _ | .addReg _ _ | .sub _ _ | .shr _ _ | .subn _ _ | .shl _ _
  | .skipNeReg _ _ | .loadIndex _ | .jumpOffset _ | .random _ _ | .draw _ _ _ | .skipKeyDown _ | .skipKeyUp _
  | .readDelay _ | .waitKey _ | .writeDelay _ | .writeSound _ | .addIndex _ | .fontAddr _ | .bcd _ | .storeRegs _
  | .loadRegs _ => true

end Sys2Proof
end

