-- ==== Sys2Proof/Decode.lean ====
section
/-! DEFINITION. The decoder of spec/30_encoding.md R75, total on every word and on every list of bytes, and after it the
encoder written from the opcode map R84 and the formats R73, with the map itself as a list of rows. -/

namespace Sys2Proof

/-! ### Fields (R72) -/

/-- `op = w[15:12]`. -/
def opField (w : Word) : BitVec 4 := w.extractLsb' 12 4

/-- `x = w[11:8]`. -/
def xField (w : Word) : Fin 16 := (w.extractLsb' 8 4).toFin

/-- `y = w[7:4]`. -/
def yField (w : Word) : Fin 16 := (w.extractLsb' 4 4).toFin

/-- `n = w[3:0]`. -/
def nField (w : Word) : BitVec 4 := w.extractLsb' 0 4

/-- `kk = w[7:0]`. -/
def kkField (w : Word) : Byte := w.extractLsb' 0 8

/-- `nnn = w[11:0]`. -/
def nnnField (w : Word) : BitVec 12 := w.extractLsb' 0 12

/-! ### The decoder (R75) -/

/-- Family 0 (R76): 00E0 is clear, 00EE is return, every other word is sys. -/
def decodeFamily0 (w : Word) : Decoded :=
  if w = 0x00E0#16 then .instr .clear
  else if w = 0x00EE#16 then .instr .ret
  else .instr (.sys (nnnField w))

/-- Family 8 (R77): the low nibble selects; 8 to D and F but for E are NOP. -/
def decodeFamily8 (w : Word) : Decoded :=
  let x := xField w
  let y := yField w
  let n := nField w
  if n = 0x0#4 then .instr (.copy x y)
  else if n = 0x1#4 then .instr (.orReg x y)
  else if n = 0x2#4 then .instr (.andReg x y)
  else if n = 0x3#4 then .instr (.xorReg x y)
  else if n = 0x4#4 then .instr (.addReg x y)
  else if n = 0x5#4 then .instr (.sub x y)
  else if n = 0x6#4 then .instr (.shr x y)
  else if n = 0x7#4 then .instr (.subn x y)
  else if n = 0xE#4 then .instr (.shl x y)
  else .nop

/-- Family E (R78): the low byte selects; anything but 9E and A1 is NOP. -/
def decodeFamilyE (w : Word) : Decoded :=
  let x := xField w
  let kk := kkField w
  if kk = 0x9E#8 then .instr (.skipKeyDown x)
  else if kk = 0xA1#8 then .instr (.skipKeyUp x)
  else .nop

/-- Family F (R78): the low byte selects among nine instructions; every other one is NOP. -/
def decodeFamilyF (w : Word) : Decoded :=
  let x := xField w
  let kk := kkField w
  if kk = 0x07#8 then .instr (.readDelay x)
  else if kk = 0x0A#8 then .instr (.waitKey x)
  else if kk = 0x15#8 then .instr (.writeDelay x)
  else if kk = 0x18#8 then .instr (.writeSound x)
  else if kk = 0x1E#8 then .instr (.addIndex x)
  else if kk = 0x29#8 then .instr (.fontAddr x)
  else if kk = 0x33#8 then .instr (.bcd x)
  else if kk = 0x55#8 then .instr (.storeRegs x)
  else if kk = 0x65#8 then .instr (.loadRegs x)
  else .nop

/-- R75: the family nibble first, then the sub-opcode of the family. Families 5 and 9 test `n = 0` (R79). -/
def decode (w : Word) : Decoded :=
  let op := opField w
  let x := xField w
  let y := yField w
  let kk := kkField w
  let nnn := nnnField w
  if op = 0x0#4 then decodeFamily0 w
  else if op = 0x1#4 then .instr (.jump nnn)
  else if op = 0x2#4 then .instr (.call nnn)
  else if op = 0x3#4 then .instr (.skipEqImm x kk)
  else if op = 0x4#4 then .instr (.skipNeImm x kk)
  else if op = 0x5#4 then (if nField w = 0x0#4 then .instr (.skipEqReg x y) else .nop)
  else if op = 0x6#4 then .instr (.loadImm x kk)
  else if op = 0x7#4 then .instr (.addImm x kk)
  else if op = 0x8#4 then decodeFamily8 w
  else if op = 0x9#4 then (if nField w = 0x0#4 then .instr (.skipNeReg x y) else .nop)
  else if op = 0xA#4 then .instr (.loadIndex nnn)
  else if op = 0xB#4 then .instr (.jumpOffset nnn)
  else if op = 0xC#4 then .instr (.random x kk)
  else if op = 0xD#4 then .instr (.draw x y (nField w).toFin)
  else if op = 0xE#4 then decodeFamilyE w
  else decodeFamilyF w

/-- The word of two consecutive bytes, the lower address the high byte (R58, R71). -/
def wordOfBytes (hi lo : Byte) : Word := hi ++ lo

/-- A word's two bytes as memory holds them, lowest address first (R58). -/
def bytesOfWord (w : Word) : List Byte := [w.extractLsb' 8 8, w.extractLsb' 0 8]

/-- Why a list of bytes holds no instruction word: R70, every instruction is exactly two bytes. -/
inductive DecodeReject where
  /-- Fewer than two bytes were given. -/
  | tooFewBytes (given : Nat)
  deriving DecidableEq, Repr

/-- Decoding from bytes, total: the verdict on the first word and the bytes after it, or the rejection by name. -/
def decodeBytes : List Byte → Except DecodeReject (Decoded × List Byte)
  | hi :: lo :: rest => .ok (decode (wordOfBytes hi lo), rest)
  | [_] => .error (.tooFewBytes 1)
  | [] => .error (.tooFewBytes 0)

/-- The instruction the decoder reads from a row's bits, bit 0 the least significant of the (only) word; none where
the word is a NOP (R81), which is no instruction of the set. -/
def decodeTableWord (nbits w : Nat) : Option Instr :=
  match decodeBytes (bytesOfWord (BitVec.ofNat 16 (w % 2 ^ nbits))) with
  | .ok (.instr i, _) => some i
  | .ok (.nop, _) => none
  | .error _ => none

/-! ### The encoder (R73, R84) -/

/-- Format NNN: family nibble and 12-bit address. -/
def packNNN (op : BitVec 4) (nnn : BitVec 12) : Word := op ++ nnn

/-- Formats XKK and XS: family nibble, register, low byte. -/
def packXKK (op : BitVec 4) (x : Fin 16) (kk : Byte) : Word := op ++ (BitVec.ofFin x : BitVec 4) ++ kk

/-- Formats XYS and XYN: family nibble, two registers, low nibble. -/
def packXYN (op : BitVec 4) (x y : Fin 16) (n : BitVec 4) : Word :=
  op ++ (BitVec.ofFin x : BitVec 4) ++ (BitVec.ofFin y : BitVec 4) ++ n

/-- The word of an instruction, from the patterns of R84. -/
def encode : Instr → Word
  | .clear => 0x00E0#16
  | .ret => 0x00EE#16
  | .sys nnn => packNNN 0x0#4 nnn
  | .jump nnn => packNNN 0x1#4 nnn
  | .call nnn => packNNN 0x2#4 nnn
  | .skipEqImm x kk => packXKK 0x3#4 x kk
  | .skipNeImm x kk => packXKK 0x4#4 x kk
  | .skipEqReg x y => packXYN 0x5#4 x y 0x0#4
  | .loadImm x kk => packXKK 0x6#4 x kk
  | .addImm x kk => packXKK 0x7#4 x kk
  | .copy x y => packXYN 0x8#4 x y 0x0#4
  | .orReg x y => packXYN 0x8#4 x y 0x1#4
  | .andReg x y => packXYN 0x8#4 x y 0x2#4
  | .xorReg x y => packXYN 0x8#4 x y 0x3#4
  | .addReg x y => packXYN 0x8#4 x y 0x4#4
  | .sub x y => packXYN 0x8#4 x y 0x5#4
  | .shr x y => packXYN 0x8#4 x y 0x6#4
  | .subn x y => packXYN 0x8#4 x y 0x7#4
  | .shl x y => packXYN 0x8#4 x y 0xE#4
  | .skipNeReg x y => packXYN 0x9#4 x y 0x0#4
  | .loadIndex nnn => packNNN 0xA#4 nnn
  | .jumpOffset nnn => packNNN 0xB#4 nnn
  | .random x kk => packXKK 0xC#4 x kk
  | .draw x y n => packXYN 0xD#4 x y (BitVec.ofFin n)
  | .skipKeyDown x => packXKK 0xE#4 x 0x9E#8
  | .skipKeyUp x => packXKK 0xE#4 x 0xA1#8
  | .readDelay x => packXKK 0xF#4 x 0x07#8
  | .waitKey x => packXKK 0xF#4 x 0x0A#8
  | .writeDelay x => packXKK 0xF#4 x 0x15#8
  | .writeSound x => packXKK 0xF#4 x 0x18#8
  | .addIndex x => packXKK 0xF#4 x 0x1E#8
  | .fontAddr x => packXKK 0xF#4 x 0x29#8
  | .bcd x => packXKK 0xF#4 x 0x33#8
  | .storeRegs x => packXKK 0xF#4 x 0x55#8
  | .loadRegs x => packXKK 0xF#4 x 0x65#8

/-- An instruction's bytes as memory holds them (R58, R70). -/
def encodeBytes (i : Instr) : List Byte := bytesOfWord (encode i)

/-! ### The opcode map (R84) -/

/-- One row of the opcode map: a word `w` matches it when `w & mask = value` (R84). -/
structure Row where
  mnemonic : String
  mask : Word
  value : Word
  deriving DecidableEq, Repr

/-- A word matches a row of the map. -/
def Row.matchesWord (r : Row) (w : Word) : Bool := w &&& r.mask == r.value

/-- Rows 1 to 8 of R84. -/
def opcodeRows1 : List Row :=
  [⟨"clear", 0xFFFF, 0x00E0⟩, ⟨"return", 0xFFFF, 0x00EE⟩, ⟨"sys", 0xF000, 0x0000⟩, ⟨"jump", 0xF000, 0x1000⟩,
   ⟨"call", 0xF000, 0x2000⟩, ⟨"skip-eq-imm", 0xF000, 0x3000⟩, ⟨"skip-ne-imm", 0xF000, 0x4000⟩,
   ⟨"skip-eq-reg", 0xF00F, 0x5000⟩]

/-- Rows 9 to 19 of R84. -/
def opcodeRows2 : List Row :=
  [⟨"load-imm", 0xF000, 0x6000⟩, ⟨"add-imm", 0xF000, 0x7000⟩, ⟨"copy", 0xF00F, 0x8000⟩, ⟨"or", 0xF00F, 0x8001⟩,
   ⟨"and", 0xF00F, 0x8002⟩, ⟨"xor", 0xF00F, 0x8003⟩, ⟨"add-reg", 0xF00F, 0x8004⟩, ⟨"sub", 0xF00F, 0x8005⟩,
   ⟨"shr", 0xF00F, 0x8006⟩, ⟨"subn", 0xF00F, 0x8007⟩, ⟨"shl", 0xF00F, 0x800E⟩]

/-- Rows 20 to 26 of R84. -/
def opcodeRows3 : List Row :=
  [⟨"skip-ne-reg", 0xF00F, 0x9000⟩, ⟨"load-index", 0xF000, 0xA000⟩, ⟨"jump-offset", 0xF000, 0xB000⟩,
   ⟨"random", 0xF000, 0xC000⟩, ⟨"draw", 0xF000, 0xD000⟩, ⟨"skip-key-down", 0xF0FF, 0xE09E⟩,
   ⟨"skip-key-up", 0xF0FF, 0xE0A1⟩]

/-- Rows 27 to 35 of R84. -/
def opcodeRows4 : List Row :=
  [⟨"read-delay", 0xF0FF, 0xF007⟩, ⟨"wait-key", 0xF0FF, 0xF00A⟩, ⟨"write-delay", 0xF0FF, 0xF015⟩,
   ⟨"write-sound", 0xF0FF, 0xF018⟩, ⟨"add-index", 0xF0FF, 0xF01E⟩, ⟨"font-addr", 0xF0FF, 0xF029⟩,
   ⟨"bcd", 0xF0FF, 0xF033⟩, ⟨"store-regs", 0xF0FF, 0xF055⟩, ⟨"load-regs", 0xF0FF, 0xF065⟩]

/-- The 35 rows of R84, in the map's order (`sys` after `clear` and `return`, which it yields to). -/
def opcodeTable : List Row := opcodeRows1 ++ opcodeRows2 ++ opcodeRows3 ++ opcodeRows4

/-- The mnemonic of R84. -/
def Instr.mnemonic : Instr → String
  | .clear => "clear" | .ret => "return" | .sys _ => "sys" | .jump _ => "jump" | .call _ => "call"
  | .skipEqImm _ _ => "skip-eq-imm" | .skipNeImm _ _ => "skip-ne-imm" | .skipEqReg _ _ => "skip-eq-reg"
  | .loadImm _ _ => "load-imm" | .addImm _ _ => "add-imm" | .copy _ _ => "copy" | .orReg _ _ => "or"
  | .andReg _ _ => "and" | .xorReg _ _ => "xor" | .addReg _ _ => "add-reg" | .sub _ _ => "sub" | .shr _ _ => "shr"
  | .subn _ _ => "subn" | .shl _ _ => "shl" | .skipNeReg _ _ => "skip-ne-reg" | .loadIndex _ => "load-index"
  | .jumpOffset _ => "jump-offset" | .random _ _ => "random" | .draw _ _ _ => "draw"
  | .skipKeyDown _ => "skip-key-down" | .skipKeyUp _ => "skip-key-up" | .readDelay _ => "read-delay"
  | .waitKey _ => "wait-key" | .writeDelay _ => "write-delay" | .writeSound _ => "write-sound"
  | .addIndex _ => "add-index" | .fontAddr _ => "font-addr" | .bcd _ => "bcd" | .storeRegs _ => "store-regs"
  | .loadRegs _ => "load-regs"

/-- The mnemonic of a decoded word; none for NOP, which the map does not list (R85). -/
def Decoded.mnemonic? : Decoded → Option String
  | .instr i => some i.mnemonic
  | .nop => none

end Sys2Proof
end

