-- ==== Sys2Proof/Machine/Parameters.lean ====
section
/-! DEFINITION. The parameters of spec/00_scope.md R9 that have a value: the font (20_memory.md R55) and the limits of
the draw's rejection (43_display.md R173). -/

namespace Sys2Proof.Machine

/-- Glyphs 0 to 7 of R55. -/
def fontLow : List Byte :=
  [0xF0, 0x90, 0x90, 0x90, 0xF0,  0x20, 0x60, 0x20, 0x20, 0x70,  0xF0, 0x10, 0xF0, 0x80, 0xF0,
   0xF0, 0x10, 0xF0, 0x10, 0xF0,  0x90, 0x90, 0xF0, 0x10, 0x10,  0xF0, 0x80, 0xF0, 0x10, 0xF0,
   0xF0, 0x80, 0xF0, 0x90, 0xF0,  0xF0, 0x10, 0x20, 0x40, 0x40]

/-- Glyphs 8 to F of R55. -/
def fontHigh : List Byte :=
  [0xF0, 0x90, 0xF0, 0x90, 0xF0,  0xF0, 0x90, 0xF0, 0x10, 0xF0,  0xF0, 0x90, 0xF0, 0x90, 0x90,
   0xE0, 0x90, 0xE0, 0x90, 0xE0,  0xF0, 0x80, 0x80, 0x80, 0xF0,  0xE0, 0x90, 0x90, 0x90, 0xE0,
   0xF0, 0x80, 0xF0, 0x80, 0xF0,  0xF0, 0x80, 0xF0, 0x80, 0x80]

/-- FONT (R9, R55): the 80 bytes at 0x000 to 0x04F, glyph `d` at `5 * d`. PRESUMED by the spec (D10); log entry 5. -/
def font : List Byte := fontLow ++ fontHigh

/-- DRAW_REJECT_X (R9, R173). -/
def drawRejectX : Nat := 63

/-- DRAW_REJECT_Y (R9, R173): 32 and not 31, read literally (90_conflicts.md C5). UNVERIFIED; log entry 7. -/
def drawRejectY : Nat := 32

/-- MAX_PROGRAM (R9, R243): 4096 − 0x200 bytes. -/
def maxProgram : Nat := 3584

/-- PROGRAM_BASE (R9, R243). -/
def programBase : Nat := 0x200

end Sys2Proof.Machine
end

