-- ==== Sys2Proof/Config.lean ====
section
/-! DEFINITION. What the spec leaves OPEN: the two free values of spec/00_scope.md R9. Each is an opaque constant:
nothing can evaluate it, so whatever is proved holds for every choice of it. The parameters that have a value (the font,
the draw rejection limits) stand in Machine/Parameters.lean. -/

namespace Sys2Proof

/-- PRNG_NEXT (R9, R136; D11): the PRNG's state update, which the spec leaves open. Log entry 3. -/
opaque Config.prngNext : Byte → Byte

/-- PRNG_SEED (R9, R242; D13): the seed drawn by the n-th RESET, which the spec leaves open. One value for each draw,
so that no two resets need agree or differ. Log entry 4. -/
opaque Config.prngSeed : Nat → Byte

end Sys2Proof
end

