-- ==== Sys2Proof/Machine/State.lean ====
section
/-! DEFINITION. The Machine State (spec/10_state.md R20), its faults (spec/60_exceptions.md R210), the host's commands
(R226), and the state after reset (R41). Plain data throughout. -/

namespace Sys2Proof.Machine

/-- The five faults of R210, each with the value it records. They are recorded in `State.fault` (R40), and a STEP of a
halted machine answers the recorded one (R91). All are safe: the machine stops where the spec says it halts. -/
inductive Fault where
  /-- Code 1, raised by a STEP before its fetch when `PC > 0xFFE`; records the PC (R212). -/
  | decodeError (pc : Word)
  /-- Code 2, raised by `2nnn` when `SP = 15`; records the call's address (R214). -/
  | stackOverflow (address : Word)
  /-- Code 3, raised by `00EE` when `SP = 0`; records the return's address (R214). -/
  | stackUnderflow (address : Word)
  /-- Code 4, raised by `Dxyn`, `Fx33`, `Fx55`, `Fx65` when an address exceeds 0xFFF; records I (R213). -/
  | memoryBoundsError (index : Word)
  /-- Code 5, raised by `Ex9E`, `ExA1` when `V[x] > 15`; records `V[x]` (R213). -/
  | keyIndexError (value : Byte)
  deriving DecidableEq, Repr

/-- Why the model gives a step no meaning. Both are safe: nothing is claimed of such a step. -/
inductive Refusal where
  /-- The instruction has no meaning in the model yet; raised by `exec` alone. -/
  | notModelled (mnemonic : String)
  /-- `00EE` or `2nnn` in a state whose SP is outside 0 to 15, which no run reaches (R28); raised by those two
  meanings. Log entry 12. -/
  | stackPointerIllegal (sp : Byte)
  deriving DecidableEq, Repr

/-- Memory contents (20_memory.md R50) as the cells that differ from the reset contents, addresses strictly rising;
`Memory.wf` says the form and `Memory.unlisted` what an unlisted address reads as. Log entry 15. -/
abbrev Memory := List Host.Cell

/-- `disp[r][c]`: 32 rows of 64 pixels (R31). -/
abbrev Display := Vector (Vector Bool 64) 32

/-- The host's commands (R226). SET_KEY exists for the indices 0 to 15 only (R222; log entry 17). -/
inductive Command where
  | reset
  | load (image : List Byte)
  | step
  | tick
  | setKey (k : Fin 16) (down : Bool)
  | display
  | sound
  deriving DecidableEq, Repr

/-- R20: the components are exactly these, each under the spec's own name, and two fields of the model's own. -/
structure State where
  /-- 4096 bytes (R50). -/
  mem : Memory
  /-- V0 to VF (R21); `V[15]` is VF (R22). -/
  V : Vector Byte 16
  /-- The index register (R24). -/
  I : Word
  /-- The program counter (R25). -/
  PC : Word
  /-- The 16 return-address slots (R27). -/
  stack : Vector Word 16
  /-- The stack pointer, legal values 0 to 15 (R28). -/
  SP : Byte
  /-- The delay timer (R29). -/
  DT : Byte
  /-- The sound timer (R30). -/
  ST : Byte
  /-- The framebuffer (R31). -/
  disp : Display
  /-- The keys held now (R32). -/
  keys : Vector Bool 16
  /-- The snapshot of the last tick (R33). -/
  prevKeys : Vector Bool 16
  /-- The PRNG state (R34). -/
  prng : Byte
  /-- The fault record; the block is halted exactly when it is not `none` (R40). -/
  fault : Option Fault
  /-- The MODEL's own: the host's commands not yet executed, oldest first; with none, the host issues STEP (R226, R228;
  DESIGN CHOICE, log entry 1). -/
  pending : List Command
  /-- The MODEL's own: how many RESETs have drawn a seed since creation (R242; DESIGN CHOICE, log entry 4). -/
  resets : Nat
  deriving DecidableEq, Repr

/-- R41, R240: every component after RESET. The PRNG state is the first draw of PRNG_SEED, a free value. -/
def State.reset : State where
  mem := []
  V := Vector.replicate 16 0#8
  I := 0#16
  PC := 0x200#16
  stack := Vector.replicate 16 0#16
  SP := 0#8
  DT := 0#8
  ST := 0#8
  disp := Vector.replicate 32 (Vector.replicate 64 false)
  keys := Vector.replicate 16 false
  prevKeys := Vector.replicate 16 false
  prng := Config.prngSeed 0
  fault := none
  pending := []
  resets := 0

end Sys2Proof.Machine
end

