-- ==== Sys2Proof/Machine/Ops.lean ====
section
/-! DEFINITION. The shared operations over memory, registers and control that the meanings are written with: memory read
and write (spec/20_memory.md), one write accessor for each component, the fetch, the pre-advance, raising a fault
(spec/60_exceptions.md R211), and the PRNG. -/

namespace Sys2Proof.Machine

/-- The outcome of an instruction or a step. -/
abbrev Result := Host.Outcome State Fault Refusal

/-! ### Memory -/

/-- What an address nothing has written reads as: the reset contents, the font and zeros (R41, R54, R55, R240). -/
def Memory.unlisted (a : Nat) : Byte := font.getD a 0#8

/-- `MemRead(a, 1)` (R51). -/
def Memory.read : Memory → Nat → Byte
  | [], a => Memory.unlisted a
  | (b, v) :: m, a => if a = b then v else Memory.read m a

/-- List the cell at `a`, keeping the addresses rising. -/
def Memory.insert : Memory → Nat → Byte → Memory
  | [], a, v => [(a, v)]
  | (b, w) :: m, a, v =>
    if a < b then (a, v) :: (b, w) :: m
    else if a = b then (a, v) :: m
    else (b, w) :: Memory.insert m a v

/-- Unlist the cell at `a`. -/
def Memory.erase : Memory → Nat → Memory
  | [], _ => []
  | (b, w) :: m, a => if a = b then Memory.erase m a else (b, w) :: Memory.erase m a

/-- `MemWrite(a, 1, v)` (R52), keeping the canonical form: a cell that reads as unlisted is not listed. -/
def Memory.write (m : Memory) (a : Nat) (v : Byte) : Memory :=
  if v = Memory.unlisted a then Memory.erase m a else Memory.insert m a v

/-- Write consecutive bytes from `a` on, in rising order. -/
def Memory.writeBytes (m : Memory) : Nat → List Byte → Memory
  | _, [] => m
  | a, v :: vs => Memory.writeBytes (Memory.write m a v) (a + 1) vs

/-- Read `n` consecutive bytes from `a` on. -/
def Memory.readBytes (m : Memory) (a : Nat) : Nat → List Byte
  | 0 => []
  | n + 1 => Memory.read m a :: Memory.readBytes m (a + 1) n

/-- The canonical form from address `lo` on: addresses rising and inside 0x000 to 0xFFF, no cell that reads as unlisted. -/
def Memory.wfFrom : Nat → Memory → Bool
  | _, [] => true
  | lo, (a, v) :: m => decide (lo ≤ a) && decide (a < 4096) && (v != Memory.unlisted a) && Memory.wfFrom (a + 1) m

/-- The canonical form of memory. -/
def Memory.wf (m : Memory) : Bool := Memory.wfFrom 0 m

/-! ### One write accessor for each component -/

/-- Memory as a whole. -/
def State.setMem (s : State) (m : Memory) : State := { s with mem := m }

/-- `V[x] <- v` (R21). -/
def State.setV (s : State) (x : Fin 16) (v : Byte) : State := { s with V := s.V.set x v }

/-- `VF <- v` (R22). -/
def State.setVF (s : State) (v : Byte) : State := s.setV 15 v

/-- `I <- v` (R24). -/
def State.setI (s : State) (v : Word) : State := { s with I := v }

/-- `PC <- v` (R25). -/
def State.setPC (s : State) (v : Word) : State := { s with PC := v }

/-- `stack[j] <- v` (R27). -/
def State.setStack (s : State) (j : Fin 16) (v : Word) : State := { s with stack := s.stack.set j v }

/-- `SP <- v` (R28). -/
def State.setSP (s : State) (v : Byte) : State := { s with SP := v }

/-- `DT <- v` (R29). -/
def State.setDT (s : State) (v : Byte) : State := { s with DT := v }

/-- `ST <- v` (R30). -/
def State.setST (s : State) (v : Byte) : State := { s with ST := v }

/-- The framebuffer as a whole (R31). -/
def State.setDisp (s : State) (d : Display) : State := { s with disp := d }

/-- `keys[k] <- down` (R32). -/
def State.setKeys (s : State) (k : Fin 16) (down : Bool) : State := { s with keys := s.keys.set k down }

/-- `prev_keys <- ks` (R33). -/
def State.setPrevKeys (s : State) (ks : Vector Bool 16) : State := { s with prevKeys := ks }

/-- `prng <- v` (R34). -/
def State.setPrng (s : State) (v : Byte) : State := { s with prng := v }

/-- `fault <- f` (R40). -/
def State.setFault (s : State) (f : Option Fault) : State := { s with fault := f }

/-- The host's commands still to come (the model's own field). -/
def State.setPending (s : State) (cs : List Command) : State := { s with pending := cs }

/-! ### Bytes of memory through the state -/

/-- `MemRead(a, 1)` (R51). -/
def State.readByte (s : State) (a : Nat) : Byte := s.mem.read a

/-- `MemWrite(a, 1, v)` (R52). -/
def State.writeByte (s : State) (a : Nat) (v : Byte) : State := s.setMem (s.mem.write a v)

/-! ### Fetch and the pre-advance (30_encoding.md R90) -/

/-- The fetch is legal only when `PC <= 0xFFE` (R26, R71). -/
def fetchLegal (pc : Word) : Bool := decide (pc.toNat ≤ 0xFFE)

/-- The opcode word at PC, big-endian (R58, R71). -/
def fetchWord (s : State) : Word := wordOfBytes (s.readByte s.PC.toNat) (s.readByte (s.PC.toNat + 1))

/-- The unconditional `PC <- PC + 2` before dispatch (R90). A meaning is given the state after it. -/
def preAdvance (s : State) : State := s.setPC (s.PC + 2#16)

/-- The address the running instruction was fetched at, from its pre-advanced state (R210). -/
def instrAddress (s : State) : Word := s.PC - 2#16

/-! ### Raising a fault -/

/-- R211: a raise records the fault and changes nothing else. -/
def recordFault (f : Fault) (s : State) : State := s.setFault (some f)

/-- `raise F` inside an instruction (00_scope.md R12, R211): the pre-advance is discarded and the step's net effect is
`fault <- F`. There is no other entry: no handler, no saved state (R218). -/
def raise (f : Fault) (s : State) : Result := .next (recordFault f (s.setPC (instrAddress s)))

/-- The fault code of R210. -/
def Fault.code : Fault → Nat
  | .decodeError _ => 1
  | .stackOverflow _ => 2
  | .stackUnderflow _ => 3
  | .memoryBoundsError _ => 4
  | .keyIndexError _ => 5

/-- The value a fault records (R210). -/
def Fault.info : Fault → Nat
  | .decodeError pc => pc.toNat
  | .stackOverflow a => a.toNat
  | .stackUnderflow a => a.toNat
  | .memoryBoundsError i => i.toNat
  | .keyIndexError v => v.toNat

/-- The block is halted exactly when a fault is recorded (R40). -/
def State.halted (s : State) : Bool := s.fault.isSome

/-! ### Control -/

/-- "then `PC += 2`" (40_control_flow.md R109): pass over the next word when the condition holds. -/
def skipIf (c : Bool) (s : State) : State := if c then s.setPC (s.PC + 2#16) else s

/-- Run `k` on SP as a slot index; an SP outside 0 to 15, which no run reaches (R28), is refused by name. -/
def withStackPointer (s : State) (k : Fin 16 → Result) : Result :=
  if h : s.SP.toNat < 16 then k ⟨s.SP.toNat, h⟩ else .refused (.stackPointerIllegal s.SP)

/-! ### The PRNG -/

/-- `random_byte()` (41_registers_alu.md R136): the new PRNG state is both kept and returned. -/
def randomByte (s : State) : Byte × State :=
  let r := Config.prngNext s.prng
  (r, s.setPrng r)

end Sys2Proof.Machine
end

