-- ==== Sys2Proof/Machine/Operands.lean ====
section
/-! DEFINITION. The operand forms (spec/30_encoding.md R74; spec/42_index_memory.md R165): a register, an immediate byte,
a 12-bit address, the address offset by V0, the index-relative range, and a key index. -/

namespace Sys2Proof.Machine

/-- `V[x]` as an operand (R74). -/
abbrev regOperand (s : State) (x : Fin 16) : Byte := s.V[x]

/-- `nnn` zero-extended to 16 bits (R74). -/
def addressOperand (nnn : BitVec 12) : Word := nnn.setWidth 16

/-- An 8-bit value zero-extended to 16 bits (R12). -/
def wordOfByte (v : Byte) : Word := v.setWidth 16

/-- `nnn + V0` (R112), at most 0x10FE. -/
def offsetOperand (s : State) (nnn : BitVec 12) : Word := addressOperand nnn + wordOfByte s.V[(0 : Fin 16)]

/-- The address of the k-th byte an instruction touches through I: `I + k`, without truncation (R165). -/
def indexAddress (s : State) (k : Nat) : Nat := s.I.toNat + k

/-- All addresses `I .. I + count - 1` are at most 0xFFF; an empty range always is (R53, R180). -/
def indexRangeLegal (s : State) (count : Nat) : Bool := decide (count = 0 ∨ indexAddress s (count - 1) ≤ 0xFFF)

/-- R53: an access of `count` bytes through I runs only when its whole range is in memory; otherwise the instruction
raises MemoryBoundsError before it reads or writes anything. -/
def withIndexRange (s : State) (count : Nat) (k : Result) : Result :=
  if indexRangeLegal s count then k else raise (.memoryBoundsError s.I) s

/-- R192: the value of `V[x]` as a key index; above 15 the instruction raises KeyIndexError. -/
def withKeyIndex (s : State) (x : Fin 16) (k : Fin 16 → Result) : Result :=
  if h : (regOperand s x).toNat < 16 then k ⟨(regOperand s x).toNat, h⟩ else raise (.keyIndexError (regOperand s x)) s

/-- The registers V0 to VF in order. -/
def allRegs : List (Fin 16) := [0, 1, 2, 3, 4, 5, 6, 7, 8, 9, 10, 11, 12, 13, 14, 15]

/-- The keys 0 to 15 in scan order (R195). -/
def allKeys : List (Fin 16) := [0, 1, 2, 3, 4, 5, 6, 7, 8, 9, 10, 11, 12, 13, 14, 15]

/-- V0 to Vx, the registers a block transfer moves (R160, R162). -/
def regsUpTo (x : Fin 16) : List (Fin 16) := allRegs.take (x.val + 1)

end Sys2Proof.Machine
end

