-- ==== Sys2Proof/Machine/Alu.lean ====
section
/-! DEFINITION. Register loads, arithmetic and random (spec/41_registers_alu.md R120 to R141). Operands are read before
any write (R14); where the destination is VF the order of the two writes decides (R141). -/

namespace Sys2Proof.Machine

/-- R141, `8xy1` to `8xy3`: Vx first, then VF, so with `x = F` the flag remains. -/
def setResultThenFlag (s : State) (x : Fin 16) (value flag : Byte) : State := (s.setV x value).setVF flag

/-- R141, `8xy4` to `8xyE`: VF first, then Vx, so with `x = F` the result remains. -/
def setFlagThenResult (s : State) (x : Fin 16) (value flag : Byte) : State := (s.setVF flag).setV x value

/-- `6xkk` load-imm (R120). -/
def execLoadImm (x : Fin 16) (kk : Byte) (s : State) : Result := .next (s.setV x kk)

/-- `7xkk` add-imm (R121): modulo 256, no flag. -/
def execAddImm (x : Fin 16) (kk : Byte) (s : State) : Result :=
  let vx := regOperand s x
  .next (s.setV x (vx + kk))

/-- `8xy0` copy (R125): VF is not reset. -/
def execCopy (x y : Fin 16) (s : State) : Result :=
  let vy := regOperand s y
  .next (s.setV x vy)

/-- `8xy1` or (R126), VF reset. -/
def execOr (x y : Fin 16) (s : State) : Result :=
  let vx := regOperand s x
  let vy := regOperand s y
  .next (setResultThenFlag s x (vx ||| vy) resetFlag)

/-- `8xy2` and (R127), VF reset. -/
def execAnd (x y : Fin 16) (s : State) : Result :=
  let vx := regOperand s x
  let vy := regOperand s y
  .next (setResultThenFlag s x (vx &&& vy) resetFlag)

/-- `8xy3` xor (R128), VF reset. -/
def execXor (x y : Fin 16) (s : State) : Result :=
  let vx := regOperand s x
  let vy := regOperand s y
  .next (setResultThenFlag s x (vx ^^^ vy) resetFlag)

/-- `8xy4` add-reg (R129): VF is the carry. -/
def execAddReg (x y : Fin 16) (s : State) : Result :=
  let vx := regOperand s x
  let vy := regOperand s y
  .next (setFlagThenResult s x (vx + vy) (carryFlag vx vy))

/-- `8xy5` sub (R130): `Vx - Vy`, VF is 1 exactly when `Vx > Vy`. -/
def execSub (x y : Fin 16) (s : State) : Result :=
  let vx := regOperand s x
  let vy := regOperand s y
  .next (setFlagThenResult s x (vx - vy) (greaterFlag vx vy))

/-- `8xy6` shr (R131): shifts Vy into Vx. -/
def execShr (x y : Fin 16) (s : State) : Result :=
  let vy := regOperand s y
  .next (setFlagThenResult s x (vy >>> 1) (lowBitFlag vy))

/-- `8xy7` subn (R132): `Vy - Vx`, VF is 1 exactly when `Vy > Vx`. -/
def execSubn (x y : Fin 16) (s : State) : Result :=
  let vx := regOperand s x
  let vy := regOperand s y
  .next (setFlagThenResult s x (vy - vx) (greaterFlag vy vx))

/-- `8xyE` shl (R134): shifts Vy into Vx. -/
def execShl (x y : Fin 16) (s : State) : Result :=
  let vy := regOperand s y
  .next (setFlagThenResult s x (vy <<< 1) (highBitFlag vy))

/-- `Cxkk` random (R137): `random_byte() & kk`; the PRNG advances whatever `kk` is. -/
def execRandom (x : Fin 16) (kk : Byte) (s : State) : Result :=
  let (r, s) := randomByte s
  .next (s.setV x (r &&& kk))

end Sys2Proof.Machine
end

