-- ==== Sys2Proof/Machine/ControlFlow.lean ====
section
/-! DEFINITION. Control flow and skips (spec/40_control_flow.md R100 to R112), and NOP (30_encoding.md R83). Every meaning
is given the pre-advanced state (R90). -/

namespace Sys2Proof.Machine

/-- `00EE` return (R100): `PC <- stack[SP]; SP <- SP - 1`; StackUnderflow when `SP = 0`. The slot keeps its value. -/
def execRet (s : State) : Result :=
  withStackPointer s fun sp =>
    if sp = 0 then raise (.stackUnderflow (instrAddress s)) s
    else .next ((s.setPC s.stack[sp]).setSP (s.SP - 1#8))

/-- `0nnn` sys (R101): a plain jump here. -/
def execSys (nnn : BitVec 12) (s : State) : Result := .next (s.setPC (addressOperand nnn))

/-- `1nnn` jump (R103). -/
def execJump (nnn : BitVec 12) (s : State) : Result := .next (s.setPC (addressOperand nnn))

/-- `2nnn` call (R102): `SP <- SP + 1; stack[SP] <- PC; PC <- nnn`, PC being the post-advance one; StackOverflow when
`SP = 15`. -/
def execCall (nnn : BitVec 12) (s : State) : Result :=
  withStackPointer s fun sp =>
    if sp = 15 then raise (.stackOverflow (instrAddress s)) s
    else .next (((s.setSP (s.SP + 1#8)).setStack (sp + 1) s.PC).setPC (addressOperand nnn))

/-- `3xkk` skip-eq-imm (R104). -/
def execSkipEqImm (x : Fin 16) (kk : Byte) (s : State) : Result :=
  let vx := regOperand s x
  .next (skipIf (vx == kk) s)

/-- `4xkk` skip-ne-imm (R105). -/
def execSkipNeImm (x : Fin 16) (kk : Byte) (s : State) : Result :=
  let vx := regOperand s x
  .next (skipIf (vx != kk) s)

/-- `5xy0` skip-eq-reg (R106). -/
def execSkipEqReg (x y : Fin 16) (s : State) : Result :=
  let vx := regOperand s x
  let vy := regOperand s y
  .next (skipIf (vx == vy) s)

/-- `9xy0` skip-ne-reg (R107). -/
def execSkipNeReg (x y : Fin 16) (s : State) : Result :=
  let vx := regOperand s x
  let vy := regOperand s y
  .next (skipIf (vx != vy) s)

/-- `Bnnn` jump-offset (R112): `PC <- nnn + V0`, never Vx, not reduced modulo 4096. -/
def execJumpOffset (nnn : BitVec 12) (s : State) : Result := .next (s.setPC (offsetOperand s nnn))

/-- NOP (R83): nothing beyond the pre-advance. -/
def execNop (s : State) : Result := .next s

end Sys2Proof.Machine
end

