-- ==== Sys2Proof/Machine/Display.lean ====
section
/-! DEFINITION. The display instructions (spec/43_display.md R170 to R180): clear, and the draw with its rejection, its
clipping and its collision flag, written as the loops of R172. -/

namespace Sys2Proof.Machine

/-- The blank framebuffer (R170). -/
def blankDisplay : Display := Vector.replicate 32 (Vector.replicate 64 false)

/-- `00E0` clear (R170). -/
def execClear (s : State) : Result := .next (s.setDisp blankDisplay)

/-- The framebuffer and the collision seen so far, the two things the loops of R172 change. -/
structure DrawState where
  disp : Display
  collision : Bool
  deriving DecidableEq, Repr

/-- `(sprite >> (7 - c)) & 1`: bit 7 is the leftmost column (R176). PRESUMED by the spec (D9); log entry 6. -/
def spriteBit (b : Byte) (c : Nat) : Bool := b.getLsbD (7 - c)

/-- One pixel (R177, R178): it becomes the exclusive or, and a 1 meeting a 1 is a collision that is never cleared. -/
def drawPixel (d : DrawState) (row : Fin 32) (col : Fin 64) (bit : Bool) : DrawState where
  disp := d.disp.set row (d.disp[row].set col (d.disp[row][col] ^^ bit))
  collision := d.collision || (bit && d.disp[row][col])

/-- The inner loop of R172 over the column offsets; past column 63 the rest of the row is not drawn (R175). -/
def drawRow (b : Byte) (row : Fin 32) (sx : Nat) : List Nat → DrawState → DrawState
  | [], d => d
  | c :: cs, d =>
    if h : sx + c < 64 then drawRow b row sx cs (drawPixel d row ⟨sx + c, h⟩ (spriteBit b c)) else d

/-- The eight column offsets of a sprite row (R172). -/
def columnOffsets : List Nat := [0, 1, 2, 3, 4, 5, 6, 7]

/-- The outer loop of R172 over the sprite's rows; past row 31 the remaining rows are not drawn (R175). -/
def drawRows (sx : Nat) : List Byte → Nat → DrawState → DrawState
  | [], _, d => d
  | b :: bs, row, d =>
    if h : row < 32 then drawRows sx bs (row + 1) (drawRow b ⟨row, h⟩ sx columnOffsets d) else d

/-- R173: the draw is rejected on the raw register values. -/
def drawRejected (vx vy : Byte) : Bool := decide (vx.toNat > drawRejectX ∨ vy.toNat > drawRejectY)

/-- The framebuffer and the collision after the sprite's bytes are drawn from the wrapped start coordinate (R174). -/
def drawSprite (disp : Display) (vx vy : Byte) (sprite : List Byte) : DrawState :=
  drawRows (vx.toNat % 64) sprite (vy.toNat % 32) ⟨disp, false⟩

/-- `Dxyn` draw (R172): rejection first (R173), then the bounds of all `n` sprite bytes (R179), then the drawing; VF is
the collision (R178). Vx and Vy are read before VF is written. -/
def execDraw (x y n : Fin 16) (s : State) : Result :=
  let vx := regOperand s x
  let vy := regOperand s y
  if drawRejected vx vy then .next s
  else
    withIndexRange s n.val
      (let d := drawSprite s.disp vx vy (s.mem.readBytes (indexAddress s 0) n.val)
       .next ((s.setDisp d.disp).setVF (flagByte d.collision)))

end Sys2Proof.Machine
end

