-- ==== Sys2Proof/Machine/IndexMemory.lean ====
section
/-! DEFINITION. The index register and the memory transfers (spec/42_index_memory.md R150 to R165). -/

namespace Sys2Proof.Machine

/-- `Annn` load-index (R150). -/
def execLoadIndex (nnn : BitVec 12) (s : State) : Result := .next (s.setI (addressOperand nnn))

/-- `Fx1E` add-index (R152): modulo 65536, no flag. -/
def execAddIndex (x : Fin 16) (s : State) : Result :=
  let vx := regOperand s x
  .next (s.setI (s.I + wordOfByte vx))

/-- `Fx29` font-addr (R154): `I <- Vx * 5`, the whole byte, not its low nibble. -/
def execFontAddr (x : Fin 16) (s : State) : Result :=
  let vx := regOperand s x
  .next (s.setI (wordOfByte vx * 5#16))

/-- The three decimal digits of a byte, hundreds first (R156). -/
def bcdDigits (v : Byte) : List Byte :=
  [BitVec.ofNat 8 (v.toNat / 100), BitVec.ofNat 8 (v.toNat / 10 % 10), BitVec.ofNat 8 (v.toNat % 10)]

/-- `Fx33` bcd (R156): the digits of Vx at I, I + 1, I + 2; I is not changed. -/
def execBcd (x : Fin 16) (s : State) : Result :=
  let vx := regOperand s x
  withIndexRange s 3 (.next (s.setMem (s.mem.writeBytes (indexAddress s 0) (bcdDigits vx))))

/-- R160, R162: I advances by `x + 1` after a block transfer. -/
def advanceIndex (s : State) (x : Fin 16) : State := s.setI (s.I + BitVec.ofNat 16 (x.val + 1))

/-- The stores of `Fx55` (R160): `MemWrite(I + i, 1, V[i])` for each register of the list, in order. -/
def storeEach (s : State) (regs : List (Fin 16)) : State :=
  regs.foldl (fun t i => t.writeByte (indexAddress s i.val) (regOperand s i)) s

/-- The loads of `Fx65` (R162): `V[i] <- MemRead(I + i, 1)` for each register of the list, in order. -/
def loadEach (s : State) (regs : List (Fin 16)) : State :=
  regs.foldl (fun t i => t.setV i (s.readByte (indexAddress s i.val))) s

/-- `Fx55` store-regs (R160). -/
def execStoreRegs (x : Fin 16) (s : State) : Result :=
  withIndexRange s (x.val + 1) (.next (advanceIndex (storeEach s (regsUpTo x)) x))

/-- `Fx65` load-regs (R162). -/
def execLoadRegs (x : Fin 16) (s : State) : Result :=
  withIndexRange s (x.val + 1) (.next (advanceIndex (loadEach s (regsUpTo x)) x))

end Sys2Proof.Machine
end

