-- ==== Sys2Proof/Machine/KeypadTimers.lean ====
section
/-! DEFINITION. The keypad and timer instructions (spec/44_keypad_timers.md R190 to R200). -/

namespace Sys2Proof.Machine

/-- `Ex9E` skip-key-down (R190): the current `keys`, not the snapshot. -/
def execSkipKeyDown (x : Fin 16) (s : State) : Result :=
  withKeyIndex s x fun k => .next (skipIf s.keys[k] s)

/-- `ExA1` skip-key-up (R191). -/
def execSkipKeyUp (x : Fin 16) (s : State) : Result :=
  withKeyIndex s x fun k => .next (skipIf (!s.keys[k]) s)

/-- `Fx07` read-delay (R193). -/
def execReadDelay (x : Fin 16) (s : State) : Result := .next (s.setV x s.DT)

/-- A rising edge on key `k`: held now and not at the last tick's snapshot (R195, R223). -/
def risingEdge (s : State) (k : Fin 16) : Bool := s.keys[k] && !s.prevKeys[k]

/-- The scan of R195: the lowest key with a rising edge (R197). -/
def firstRisingEdge (s : State) : Option (Fin 16) := allKeys.find? (risingEdge s)

/-- `Fx0A` wait-key (R195): the key's index into Vx, or back to this instruction's own address to try again (R196). -/
def execWaitKey (x : Fin 16) (s : State) : Result :=
  match firstRisingEdge s with
  | some k => .next (s.setV x (BitVec.ofNat 8 k.val))
  | none => .next (s.setPC (s.PC - 2#16))

/-- `Fx15` write-delay (R198). -/
def execWriteDelay (x : Fin 16) (s : State) : Result := .next (s.setDT (regOperand s x))

/-- `Fx18` write-sound (R199). -/
def execWriteSound (x : Fin 16) (s : State) : Result := .next (s.setST (regOperand s x))

end Sys2Proof.Machine
end

