-- ==== Sys2Proof/Machine/Dispatch.lean ====
section
/-! DEFINITION. The dispatch of spec/30_encoding.md R88, R90: one arm per instruction, matched exhaustively. The state is the
pre-advanced one. -/

namespace Sys2Proof.Machine

def exec (i : Instr) (s : State) : Host.Outcome State Fault Refusal :=
  match i with
  | .clear => Sys2Proof.Machine.execClear s
  | .ret => Sys2Proof.Machine.execRet s
  | .sys nnn => Sys2Proof.Machine.execSys nnn s
  | .jump nnn => Sys2Proof.Machine.execJump nnn s
  | .call nnn => Sys2Proof.Machine.execCall nnn s
  | .skipEqImm x kk => Sys2Proof.Machine.execSkipEqImm x kk s
  | .skipNeImm x kk => Sys2Proof.Machine.execSkipNeImm x kk s
  | .skipEqReg x y => Sys2Proof.Machine.execSkipEqReg x y s
  | .loadImm x kk => Sys2Proof.Machine.execLoadImm x kk s
  | .addImm x kk => Sys2Proof.Machine.execAddImm x kk s
  | .copy x y => Sys2Proof.Machine.execCopy x y s
  | .orReg x y => Sys2Proof.Machine.execOr x y s
  | .andReg x y => Sys2Proof.Machine.execAnd x y s
  | .xorReg x y => Sys2Proof.Machine.execXor x y s
  | .addReg x y => Sys2Proof.Machine.execAddReg x y s
  | .sub x y => Sys2Proof.Machine.execSub x y s
  | .shr x y => Sys2Proof.Machine.execShr x y s
  | .subn x y => Sys2Proof.Machine.execSubn x y s
  | .shl x y => Sys2Proof.Machine.execShl x y s
  | .skipNeReg x y => Sys2Proof.Machine.execSkipNeReg x y s
  | .loadIndex nnn => Sys2Proof.Machine.execLoadIndex nnn s
  | .jumpOffset nnn => Sys2Proof.Machine.execJumpOffset nnn s
  | .random x kk => Sys2Proof.Machine.execRandom x kk s
  | .draw x y n => Sys2Proof.Machine.execDraw x y n s
  | .skipKeyDown x => Sys2Proof.Machine.execSkipKeyDown x s
  | .skipKeyUp x => Sys2Proof.Machine.execSkipKeyUp x s
  | .readDelay x => Sys2Proof.Machine.execReadDelay x s
  | .waitKey x => Sys2Proof.Machine.execWaitKey x s
  | .writeDelay x => Sys2Proof.Machine.execWriteDelay x s
  | .writeSound x => Sys2Proof.Machine.execWriteSound x s
  | .addIndex x => Sys2Proof.Machine.execAddIndex x s
  | .fontAddr x => Sys2Proof.Machine.execFontAddr x s
  | .bcd x => Sys2Proof.Machine.execBcd x s
  | .storeRegs x => Sys2Proof.Machine.execStoreRegs x s
  | .loadRegs x => Sys2Proof.Machine.execLoadRegs x s

end Sys2Proof.Machine
end

