-- ==== Sys2Proof/Machine/HostCommands.lean ====
section
/-! DEFINITION. The host's commands but for STEP (spec/60_exceptions.md R220 to R226; spec/70_reset_and_hazards.md R240 to
R244): RESET, LOAD, TICK, SET_KEY, and the outputs. They work whether or not the block is halted (R215). -/

namespace Sys2Proof.Machine

/-- RESET (R240): every component at its value of R41, the PRNG at a fresh draw of PRNG_SEED (R242). What the host still
has to say is not the machine's and stays. -/
def resetCommand (s : State) : State :=
  { State.reset with prng := Config.prngSeed (s.resets + 1), pending := s.pending, resets := s.resets + 1 }

/-- R243: an image longer than 3584 bytes is too large. -/
def imageTooLarge (image : List Byte) : Bool := decide (image.length > maxProgram)

/-- LOAD (R243): a too large image changes nothing; otherwise RESET and then the bytes from 0x200 on. -/
def loadCommand (image : List Byte) (s : State) : State :=
  if imageTooLarge image then s
  else
    let t := resetCommand s
    t.setMem (t.mem.writeBytes programBase image)

/-- R220: a timer counts down by one while above 0. -/
def countDown (v : Byte) : Byte := if v.toNat > 0 then v - 1#8 else v

/-- TICK (R220): both timers and the key snapshot, together. -/
def tickCommand (s : State) : State := ((s.setDT (countDown s.DT)).setST (countDown s.ST)).setPrevKeys s.keys

/-- SET_KEY (R222). -/
def setKeyCommand (k : Fin 16) (down : Bool) (s : State) : State := s.setKeys k down

/-- The sound output: `ST > 0` (R224). -/
def soundOutput (s : State) : Bool := decide (s.ST.toNat > 0)

/-- The display output: the grid (R225). -/
def displayOutput (s : State) : Display := s.disp

end Sys2Proof.Machine
end

