-- ==== Sys2Proof/Machine/Cycle.lean ====
section
/-! DEFINITION. The machine cycle (spec/30_encoding.md R90), the command STEP and the other commands as transitions, and
the block's answers to them (spec/60_exceptions.md R226). -/

namespace Sys2Proof.Machine

/-- Dispatch on the decoder's verdict, with an explicit NOP arm (R88). -/
def execDecoded (d : Decoded) (s : State) : Result :=
  match d with
  | .instr i => exec i s
  | .nop => execNop s

/-- One machine cycle (R90). Halted: nothing changes and the recorded fault is the outcome (R91). PC out of range: the
fault DecodeError is recorded and nothing is fetched (R212). Otherwise fetch, pre-advance, decode, execute. -/
def cycle (s : State) : Result :=
  match s.fault with
  | some f => .fault f
  | none =>
    if fetchLegal s.PC then execDecoded (decode (fetchWord s)) (preAdvance s)
    else .next (recordFault (.decodeError s.PC) s)

/-- A STEP among other commands: where the block is halted nothing changes (R91) and the host goes on to its next
command (R215; log entry 2). -/
def stepCommand (s : State) : Result :=
  match cycle s with
  | .fault _ => .next s
  | o => o

/-- The effect of each command of R226. The two queries change nothing (R224, R225). -/
def runCommand (c : Command) (s : State) : Result :=
  match c with
  | .reset => .next (resetCommand s)
  | .load image => .next (loadCommand image s)
  | .step => stepCommand s
  | .tick => .next (tickCommand s)
  | .setKey k down => .next (setKeyCommand k down s)
  | .display => .next s
  | .sound => .next s

/-- The transition of the whole system: the host's next command; when it has none left, it issues STEP (R226, R228;
log entry 1). -/
def transition (s : State) : Result :=
  match s.pending with
  | [] => cycle s
  | c :: rest => runCommand c (s.setPending rest)

/-- What the block answers its host (R226). -/
inductive Response where
  | none
  | ok
  | err (f : Fault)
  | tooLarge
  | grid (d : Display)
  | level (on : Bool)
  deriving DecidableEq, Repr

/-- The answer to a STEP (R92, R211): `Ok`, or `Err` with the fault recorded by it or before it. -/
def stepResponse (s : State) : Response :=
  match cycle s with
  | .next t => match t.fault with
    | some f => .err f
    | Option.none => .ok
  | .fault f => .err f
  | .refused _ => .none

/-- The answer to each command, issued in state `s` (R226). -/
def respond (c : Command) (s : State) : Response :=
  match c with
  | .reset => .none
  | .load image => if imageTooLarge image then .tooLarge else .ok
  | .step => stepResponse s
  | .tick => .none
  | .setKey _ _ => .none
  | .display => .grid (displayOutput s)
  | .sound => .level (soundOutput s)

/-- The address a word placed for the next fetch goes to: PC, or the entry point where PC is out of the fetch range. -/
def placementAddress (s : State) : Word := if fetchLegal s.PC then s.PC else 0x200#16

/-- `s` with a word stored where the next cycle fetches it, big-endian (R58), the block not halted and the host about to
issue STEP (log entry 16). -/
def placeWord (s : State) (w : Word) : State :=
  let a := placementAddress s
  (((s.setFault none).setPending []).setPC a).setMem (s.mem.writeBytes a.toNat (bytesOfWord w))

end Sys2Proof.Machine
end

