-- ==== Sys2Proof/Machine/Step.lean ====
section
/-! DEFINITION. The step: one atomic command of the host (spec/60_exceptions.md R226), which with no command pending is
one machine cycle (spec/30_encoding.md R90). -/

namespace Sys2Proof.Machine

/-- One command, atomic and complete before the next (R226). -/
def step (s : State) : Host.Outcome State Fault Refusal := transition s

/-- `s` with the word `w`, of `nbits` bits, stored where `step` fetches its next instruction. -/
def State.withFetchWord (s : State) (nbits w : Nat) : State := placeWord s (BitVec.ofNat 16 (w % 2 ^ nbits))

end Sys2Proof.Machine
end

