-- ==== Sys2Proof/Safety.lean ====
section
/-! DEFINITION. What claims call a legal state and a safe run. -/

namespace Sys2Proof.Safety

open Sys2Proof.Machine

/-- The invariant of every state a run reaches: memory is in its canonical form (20_memory.md R50); SP is legal (10_state.md
R28); slot 0 has never been written and every return address is at most 0x1000 (R27, R28, 40_control_flow.md R100); PC is
at most 0x10FE, so PC arithmetic never wraps (R26). -/
structure Legal (s : State) : Prop where
  mem : s.mem.wf = true
  sp : s.SP.toNat ≤ 15
  slot0 : s.stack[(0 : Fin 16)] = 0#16
  slots : ∀ j : Fin 16, s.stack[j].toNat ≤ 0x1000
  pc : s.PC.toNat ≤ 0x10FE

/-- A recorded fault says what the halted state still shows: a fault is precise (60_exceptions.md R210, R211). -/
def faultTruthful (s : State) : Prop :=
  match s.fault with
  | none => True
  | some (.decodeError pc) => pc = s.PC ∧ s.PC.toNat > 0xFFE
  | some (.stackOverflow a) => a = s.PC ∧ s.SP = 15#8
  | some (.stackUnderflow a) => a = s.PC ∧ s.SP = 0#8
  | some (.memoryBoundsError i) => i = s.I ∧ s.I.toNat > 0xFF0
  | some (.keyIndexError v) => v.toNat > 15

/-- The sprite's bit that lands on pixel `(r, c)` when `n` rows, `rowByte k` the k-th, are drawn from row `sy`, column
`sx`: bit 7 is the leftmost column, and a pixel outside the sprite's box gets 0 (43_display.md R175, R176). -/
def spritePixel (rowByte : Nat → Byte) (n sy sx : Nat) (r : Fin 32) (c : Fin 64) : Bool :=
  decide (sy ≤ r.val ∧ r.val < sy + n ∧ sx ≤ c.val ∧ c.val < sx + 8) &&
    (rowByte (r.val - sy)).getLsbD (7 - (c.val - sx))

/-- The fault an instruction raises in its pre-advanced state, from the conditions of 60_exceptions.md R210; none for every
other instruction and every other state. -/
def faultOf (i : Instr) (s : State) : Option Fault :=
  match i with
  | .call _ => if s.SP.toNat = 15 then some (.stackOverflow (s.PC - 2#16)) else none
  | .ret => if s.SP.toNat = 0 then some (.stackUnderflow (s.PC - 2#16)) else none
  | .draw x y n =>
    if s.V[x].toNat ≤ 63 ∧ s.V[y].toNat ≤ 32 ∧ 0 < n.val ∧ 0xFFF < s.I.toNat + (n.val - 1)
    then some (.memoryBoundsError s.I) else none
  | .bcd _ => if 0xFFF < s.I.toNat + 2 then some (.memoryBoundsError s.I) else none
  | .storeRegs x | .loadRegs x => if 0xFFF < s.I.toNat + x.val then some (.memoryBoundsError s.I) else none
  | .skipKeyDown x | .skipKeyUp x => if 15 < s.V[x].toNat then some (.keyIndexError s.V[x]) else none
  | .clear | .sys _ | .jump _ | .skipEqImm _ _ | .skipNeImm _ _ | .skipEqReg _ _ | .loadImm _ _ | .addImm _ _
  | .copy _ _ | .orReg _ _ | .andReg _ _ | .xorReg _ _ | .addReg _ _ | .sub _ _ | .shr _ _ | .subn _ _ | .shl _ _
  | .skipNeReg _ _ | .loadIndex _ | .jumpOffset _ | .random _ _ | .readDelay _ | .waitKey _ | .writeDelay _
  | .writeSound _ | .addIndex _ | .fontAddr _ => none

/-- The registers an instruction may write: its named destination, V0 to Vx for `Fx65`, and VF for `8xy1` to `8xyE` and
`Dxyn` (spec/10_state.md R21, R22). -/
def mayWriteReg (i : Instr) (r : Fin 16) : Prop :=
  match i with
  | .loadImm x _ | .addImm x _ | .copy x _ | .random x _ | .readDelay x | .waitKey x => r = x
  | .orReg x _ | .andReg x _ | .xorReg x _ | .addReg x _ | .sub x _ | .shr x _ | .subn x _ | .shl x _ => r = x ∨ r = 15
  | .draw _ _ _ => r = 15
  | .loadRegs x => r ≤ x
  | .clear | .ret | .sys _ | .jump _ | .call _ | .skipEqImm _ _ | .skipNeImm _ _ | .skipEqReg _ _ | .skipNeReg _ _
  | .loadIndex _ | .jumpOffset _ | .skipKeyDown _ | .skipKeyUp _ | .writeDelay _ | .writeSound _ | .addIndex _
  | .fontAddr _ | .bcd _ | .storeRegs _ => False

/-- The instructions that may write PC beyond the pre-advance: the control transfers, the six skips and `wait-key`
(spec/10_state.md R25; spec/40_control_flow.md; spec/44_keypad_timers.md R190, R191, R195). -/
def mayWritePc : Instr → Prop
  | .ret | .sys _ | .jump _ | .call _ | .jumpOffset _ | .skipEqImm _ _ | .skipNeImm _ _ | .skipEqReg _ _
  | .skipNeReg _ _ | .skipKeyDown _ | .skipKeyUp _ | .waitKey _ => True
  | .clear | .loadImm _ _ | .addImm _ _ | .copy _ _ | .orReg _ _ | .andReg _ _ | .xorReg _ _ | .addReg _ _ | .sub _ _
  | .shr _ _ | .subn _ _ | .shl _ _ | .loadIndex _ | .random _ _ | .draw _ _ _ | .readDelay _ | .writeDelay _
  | .writeSound _ | .addIndex _ | .fontAddr _ | .bcd _ | .storeRegs _ | .loadRegs _ => False

/-- The block is about to run the instruction at PC: not halted, PC in the fetch range, and the host issues STEP. -/
structure Runs (s : State) (i : Instr) : Prop where
  live : s.fault = none
  pc : s.PC.toNat ≤ 0xFFE
  word : decode (wordOfBytes (s.readByte s.PC.toNat) (s.readByte (s.PC.toNat + 1))) = .instr i
  host : s.pending = []

/-- A function of the next state, where an outcome has one. -/
def onNext (g : State → State) : Host.Outcome State Fault Refusal → Host.Outcome State Fault Refusal
  | .next t => .next (g t)
  | .fault f => .fault f
  | .refused r => .refused r

/-- The states a run of the system reaches from reset, whatever commands the host issues. -/
inductive Reachable : State → Prop where
  | reset (cs : List Command) : Reachable (State.reset.setPending cs)
  | step {s t : State} : Reachable s → step s = .next t → Reachable t

/-- A safe run of `n` steps: no step of it stops with a fault or a refusal. -/
def SafeFor (n : Nat) (s : State) : Prop := ∃ t, Sys2Proof.core.run n s = .next t

end Sys2Proof.Safety
end

