-- ==== Sys2Proof/Certificates/Slice0/Obligations.lean ====
section
/-! DEFINITION. The statements for the provers. Each is about every state (or every word), the instruction statements about
the pre-advanced state `exec` is given (spec/30_encoding.md R90). In a statement of the form `exec i s = .next { s with … }`
the named components are the only ones that change: every register, flag, timer, pixel and byte of memory not named is as it
was. Every statement that `exec` answers a next state is also the completion statement of its instructions. A fault raised
inside `exec` puts PC back by 2, since `exec` is given the state after `PC + 2` (log entry 13). The list `pending`, the
host's commands to come, and `resets` are the model's own fields (log entries 1 and 4). -/

open Sys2Proof Sys2Proof.Machine Sys2Proof.Safety

/-! ### Encoding and decoding -/

/-- Decode and encode agree: the word of a well-formed instruction decodes to that instruction, operands included
(30_encoding.md section 3, R73, R84). -/
def Obligations.EncodedInstructionDecodesToItself : Prop :=
  ∀ i : Instr, i.wellFormed = true → decode (encode i) = .instr i

/-- The other direction: a word that decodes to an instruction is the encoding of that one, which is well-formed. -/
def Obligations.DecodedWordIsItsEncoding : Prop :=
  ∀ (w : Word) (i : Instr), decode w = .instr i → i.wellFormed = true ∧ encode i = w

/-- R84: the decoder's verdict on every word is the first row of the opcode map it matches, and no word matches two rows
unless one of them is `sys`. That `5xyN` and `9xyN` with N not 0 match none is the spec's own decision D8 (R79, log entry
9). -/
def Obligations.DecodeIsFirstMatchingRowOfOpcodeMap : Prop :=
  (∀ w : Word, (decode w).mnemonic? = (opcodeTable.find? (fun r => r.matchesWord w)).map Row.mnemonic) ∧
  (∀ w : Word, ∀ r₁ ∈ opcodeTable, ∀ r₂ ∈ opcodeTable, r₁.matchesWord w = true → r₂.matchesWord w = true →
    r₁ = r₂ ∨ r₁.mnemonic = "sys" ∨ r₂.mnemonic = "sys")

/-- The words that decode to NOP are exactly the unlisted sub-opcodes of families 5, 8, 9, E and F (30_encoding.md sections 3
and 4). For families 5 and 9 this is the spec's own decision D8 (log entry 9). -/
def Obligations.NopWordsAreTheUnlistedSubopcodes : Prop :=
  ∀ w : Word, decode w = .nop ↔
    ((opField w = 0x5#4 ∨ opField w = 0x9#4) ∧ nField w ≠ 0x0#4) ∨
    (opField w = 0x8#4 ∧ nField w ∈ [0x8#4, 0x9#4, 0xA#4, 0xB#4, 0xC#4, 0xD#4, 0xF#4]) ∨
    (opField w = 0xE#4 ∧ kkField w ∉ [0x9E#8, 0xA1#8]) ∨
    (opField w = 0xF#4 ∧ kkField w ∉ [0x07#8, 0x0A#8, 0x15#8, 0x18#8, 0x1E#8, 0x29#8, 0x33#8, 0x55#8, 0x65#8])

/-- Words written out from the patterns of R84, at least one of each of the 16 families, as the two bytes memory holds;
then two NOP words, of which 0x5121 is one by the spec's own decision D8 (30_encoding.md R79, log entry 9). -/
def Obligations.WrittenOutWordsDecode : Prop :=
  (decodeBytes [0x00, 0xE0] = .ok (.instr .clear, []) ∧
  decodeBytes [0x12, 0x34] = .ok (.instr (.jump 0x234), []) ∧
  decodeBytes [0x23, 0x45] = .ok (.instr (.call 0x345), []) ∧
  decodeBytes [0x3A, 0x42] = .ok (.instr (.skipEqImm 10 0x42), []) ∧
  decodeBytes [0x4A, 0x42] = .ok (.instr (.skipNeImm 10 0x42), []) ∧
  decodeBytes [0x51, 0x20] = .ok (.instr (.skipEqReg 1 2), []) ∧
  decodeBytes [0x6A, 0x2F] = .ok (.instr (.loadImm 10 0x2F), []) ∧
  decodeBytes [0x71, 0x20] = .ok (.instr (.addImm 1 0x20), []) ∧
  decodeBytes [0x81, 0x26] = .ok (.instr (.shr 1 2), []) ∧
  decodeBytes [0x91, 0x20] = .ok (.instr (.skipNeReg 1 2), []) ∧
  decodeBytes [0xA2, 0xF0] = .ok (.instr (.loadIndex 0x2F0), []) ∧
  decodeBytes [0xB5, 0x00] = .ok (.instr (.jumpOffset 0x500), []) ∧
  decodeBytes [0xC3, 0x0F] = .ok (.instr (.random 3 0x0F), []) ∧
  decodeBytes [0xD1, 0x25] = .ok (.instr (.draw 1 2 5), []) ∧
  decodeBytes [0xE2, 0x9E] = .ok (.instr (.skipKeyDown 2), []) ∧
  decodeBytes [0xF5, 0x33] = .ok (.instr (.bcd 5), [])) ∧
  decodeBytes [0x81, 0x28] = .ok (.nop, []) ∧
  decodeBytes [0x51, 0x21] = .ok (.nop, [])

/-! ### The step -/

/-- A step runs the decoded instruction: where the block is not halted, PC is in the fetch range and the two bytes at PC,
the lower address the high byte, decode to `i`, the step is `exec i` on the state with `PC + 2`. The same holds where the
host's next command is STEP. -/
def Obligations.StepRunsDecodedInstruction : Prop :=
  ∀ (s : State) (i : Instr), s.fault = none → s.PC.toNat ≤ 0xFFE →
    decode (wordOfBytes (s.readByte s.PC.toNat) (s.readByte (s.PC.toNat + 1))) = .instr i →
    (s.pending = [] → step s = exec i { s with PC := s.PC + 2#16 }) ∧
    (∀ rest, s.pending = .step :: rest →
      ∀ t, exec i { s with PC := s.PC + 2#16, pending := rest } = .next t → step s = .next t)

/-- R83: a NOP step's whole effect is `PC <- PC + 2`. -/
def Obligations.NopStepOnlyAdvancesPc : Prop :=
  ∀ s : State, s.fault = none → s.PC.toNat ≤ 0xFFE →
    decode (wordOfBytes (s.readByte s.PC.toNat) (s.readByte (s.PC.toNat + 1))) = .nop →
    (s.pending = [] → step s = .next { s with PC := s.PC + 2#16 }) ∧
    (∀ rest, s.pending = .step :: rest → step s = .next { s with PC := s.PC + 2#16, pending := rest })

/-- A STEP with `PC > 0xFFE` raises DecodeError(PC) and fetches nothing, whatever memory holds: the spec's own decision D2
(60_exceptions.md R212; log entry 10). -/
def Obligations.StepOutOfFetchRangeRaisesDecodeError : Prop :=
  ∀ s : State, s.fault = none → 0xFFE < s.PC.toNat →
    (s.pending = [] → step s = .next { s with fault := some (.decodeError s.PC) }) ∧
    (∀ rest, s.pending = .step :: rest →
      step s = .next { s with fault := some (.decodeError s.PC), pending := rest }) ∧
    respond .step s = .err (.decodeError s.PC)

/-- While halted, a STEP the host issues changes nothing but that it is used up, and answers the recorded fault: the
spec's own decision D3 (30_encoding.md R91, 60_exceptions.md R215; log entries 2 and 10). -/
def Obligations.HaltedStepChangesNothing : Prop :=
  ∀ (s : State) (f : Fault) (rest : List Command), s.fault = some f → s.pending = .step :: rest →
    step s = .next { s with pending := rest } ∧ respond .step s = .err f

/-- The model's choice (log entry 2): where the host has no further command, the step of a halted block stops with the
recorded fault. -/
def Obligations.HaltedRunStopsWithRecordedFault : Prop :=
  ∀ (s : State) (f : Fault), s.fault = some f → s.pending = [] → step s = .fault f

/-- A STEP that records a fault leaves every other component as it was before the step, PC included, and answers Err; one
that records none answers Ok (60_exceptions.md R211, 30_encoding.md R92; the spec's own decision D3, log entry 10). -/
def Obligations.FaultingStepIsPrecise : Prop :=
  ∀ s t : State, s.fault = none → s.pending = [] → step s = .next t →
    (∀ f, t.fault = some f → t = { s with fault := some f } ∧ respond .step s = .err f ∧ t.halted = true) ∧
    (t.fault = none → respond .step s = .ok)

/-- With a legal SP an instruction raises the fault of its entry in the table of 60_exceptions.md R210, leaving PC at its
own address and recording the entry's value, and in every other case it completes with the fault record as it was; the
codes are 1 to 5. The faults are the spec's own decisions D2, D4, D5, D6, D28 (log entry 10). -/
def Obligations.FaultsAreExactlyTheTable : Prop :=
  (∀ (i : Instr) (s : State) (f : Fault), s.SP.toNat ≤ 15 → faultOf i s = some f →
    exec i s = .next { s with PC := s.PC - 2#16, fault := some f }) ∧
  (∀ (i : Instr) (s : State), s.SP.toNat ≤ 15 → faultOf i s = none →
    ∃ t, exec i s = .next t ∧ t.fault = s.fault) ∧
  (∀ v : Word, ∀ b : Byte,
    (Fault.decodeError v).code = 1 ∧ (Fault.stackOverflow v).code = 2 ∧ (Fault.stackUnderflow v).code = 3 ∧
    (Fault.memoryBoundsError v).code = 4 ∧ (Fault.keyIndexError b).code = 5)

/-- With a legal SP, whatever bytes memory holds and whatever the host's next command is, a step is a next state; or, where
the block is halted and the host has no command left, it stops with the recorded fault (the model's choice of outcome, log
entry 2). So no word and no state a run reaches is refused (30_encoding.md R81, R82). -/
def Obligations.StepNeverRefusesWithLegalSp : Prop :=
  ∀ s : State, s.SP.toNat ≤ 15 →
    (∃ t, step s = .next t) ∨ ∃ f, s.fault = some f ∧ s.pending = [] ∧ step s = .fault f

/-! ### Invariants -/

/-- Every step, a command of the host included, keeps the legal form: canonical memory, SP in 0 to 15, slot 0 unwritten,
return addresses at most 0x1000, PC at most 0x10FE. -/
def Obligations.StepKeepsLegal : Prop :=
  ∀ s t : State, Legal s → step s = .next t → Legal t

/-- The state after reset is legal. -/
def Obligations.ResetIsLegal : Prop := Legal State.reset ∧ faultTruthful State.reset

/-- Every step of any command keeps the recorded fault true of the state: a halted block still shows the condition that
halted it. What a fault records and that the record is precise and sticky are the spec's own decisions D2 to D6 and D28
(60_exceptions.md R210, R211, R215; log entry 10). -/
def Obligations.StepKeepsFaultTruthful : Prop :=
  ∀ s t : State, faultTruthful s → step s = .next t → faultTruthful t

/-- In every state a run reaches, whatever commands the host issues, SP is in 0 to 15, slot 0 of the stack is as reset left
it, PC is at most 0x10FE, and no step is refused. -/
def Obligations.ReachableStatesStayInBounds : Prop :=
  ∀ s : State, Reachable s →
    s.SP.toNat ≤ 15 ∧ s.stack[(0 : Fin 16)] = 0#16 ∧ s.PC.toNat ≤ 0x10FE ∧ s.mem.wf = true ∧
    ∀ r, step s ≠ .refused r

/-! ### Rules about the whole machine -/

/-- The block is halted exactly when a fault is recorded; only a STEP sets the record, only RESET or a successful LOAD clears
it, and nothing else changes it (10_state.md R40; the spec's own decision D3, log entry 10). -/
def Obligations.FaultSetByStepClearedByResetOrLoad : Prop :=
  ∀ s t : State, step s = .next t →
    (s.halted = true ↔ s.fault ≠ none) ∧
    (s.fault = none → t.fault ≠ none → s.pending = [] ∨ ∃ rest, s.pending = .step :: rest) ∧
    (∀ f, s.fault = some f → t.fault = some f ∨ (t.fault = none ∧
      ((∃ rest, s.pending = .reset :: rest) ∨
       (∃ image rest, s.pending = .load image :: rest ∧ image.length ≤ 3584))))

/-- The keys change only by SET_KEY, RESET and LOAD, and the snapshot only by TICK, RESET and LOAD (R32, R33): a STEP
changes neither. -/
def Obligations.KeysAndSnapshotChangeOnlyByHost : Prop :=
  ∀ s t : State, step s = .next t →
    (t.keys = s.keys ∨ (∃ k down rest, s.pending = .setKey k down :: rest) ∨ (∃ rest, s.pending = .reset :: rest) ∨
      ∃ image rest, s.pending = .load image :: rest) ∧
    (t.prevKeys = s.prevKeys ∨ (∃ rest, s.pending = .tick :: rest) ∨ (∃ rest, s.pending = .reset :: rest) ∨
      ∃ image rest, s.pending = .load image :: rest)

/-- Which instructions change which component of R20 (R21 to R34, R40): a register only the instructions that have it as a
destination or VF's writers, PC only the control transfers, the skips, `wait-key` and a raise, the fault record only the
forms and conditions `faultOf` lists (the spec's own decisions D4, D5, D6; log entry 10), memory only `Fx33` and `Fx55`, the
framebuffer only `00E0` and `Dxyn`, the slots only `2nnn`, SP only `2nnn` and `00EE`, the timers only their own writes, the
PRNG state only `Cxkk`, I only the five instructions that name it; keys, snapshot, what the host still has to say and the
count of resets, none. -/
def Obligations.EachComponentHasItsWriters : Prop :=
  ∀ (i : Instr) (s t : State), exec i s = .next t →
    (∀ r : Fin 16, ¬ mayWriteReg i r → t.V[r] = s.V[r]) ∧
    (¬ mayWritePc i → faultOf i s = none → t.PC = s.PC) ∧
    (faultOf i s = none → t.fault = s.fault) ∧
    ((∀ x, i ≠ .bcd x) → (∀ x, i ≠ .storeRegs x) → t.mem = s.mem) ∧
    (i ≠ .clear → (∀ x y n, i ≠ .draw x y n) → t.disp = s.disp) ∧
    ((∀ a, i ≠ .call a) → t.stack = s.stack) ∧
    ((∀ a, i ≠ .call a) → i ≠ .ret → t.SP = s.SP) ∧
    ((∀ x, i ≠ .writeDelay x) → t.DT = s.DT) ∧
    ((∀ x, i ≠ .writeSound x) → t.ST = s.ST) ∧
    ((∀ x kk, i ≠ .random x kk) → t.prng = s.prng) ∧
    ((∀ a, i ≠ .loadIndex a) → (∀ x, i ≠ .addIndex x) → (∀ x, i ≠ .fontAddr x) → (∀ x, i ≠ .storeRegs x) →
      (∀ x, i ≠ .loadRegs x) → t.I = s.I) ∧
    t.keys = s.keys ∧ t.prevKeys = s.prevKeys ∧ t.pending = s.pending ∧ t.resets = s.resets

/-- VF changes only by `8xy1` to `8xyE`, by `Dxyn`, and as a named destination (R22). -/
def Obligations.FlagRegisterHasItsWriters : Prop :=
  ∀ (i : Instr) (s t : State), exec i s = .next t → t.V[(15 : Fin 16)] ≠ s.V[(15 : Fin 16)] →
    (∃ x y, i = .orReg x y ∨ i = .andReg x y ∨ i = .xorReg x y ∨ i = .addReg x y ∨ i = .sub x y ∨ i = .shr x y ∨
      i = .subn x y ∨ i = .shl x y ∨ ∃ n, i = .draw x y n) ∨
    (∃ kk, i = .loadImm 15 kk ∨ i = .addImm 15 kk ∨ i = .random 15 kk) ∨ (∃ y, i = .copy 15 y) ∨
    i = .readDelay 15 ∨ i = .waitKey 15 ∨ i = .loadRegs 15

/-- The PRNG state is seen only through `Cxkk`, and the key snapshot only through `Fx0A` (R36): with any other instruction
two states that differ there alone end in states that differ there alone. -/
def Obligations.PrngAndSnapshotAreSeenByOneInstruction : Prop :=
  (∀ (i : Instr) (s : State) (p : Byte), (∀ x kk, i ≠ .random x kk) →
    exec i { s with prng := p } = onNext (fun t => { t with prng := p }) (exec i s)) ∧
  (∀ (i : Instr) (s : State) (ks : Vector Bool 16), (∀ x, i ≠ .waitKey x) →
    exec i { s with prevKeys := ks } = onNext (fun t => { t with prevKeys := ks }) (exec i s))

/-! ### Control flow -/

/-- `PC <- stack[SP]; SP <- SP - 1`, the slot keeping its value (40_control_flow.md R100); StackUnderflow at `SP = 0`, the
spec's own decision D4 (log entry 10). -/
def Obligations.ReturnPopsTheTopSlot : Prop :=
  ∀ s : State,
    (s.SP.toNat = 0 →
      exec .ret s = .next { s with PC := s.PC - 2#16, fault := some (.stackUnderflow (s.PC - 2#16)) }) ∧
    (∀ j : Fin 16, j.val = s.SP.toNat → j ≠ 0 →
      ∃ sp : Byte, exec .ret s = .next { s with PC := s.stack[j], SP := sp } ∧ sp.toNat + 1 = s.SP.toNat)

/-- `SP <- SP + 1; stack[SP] <- PC; PC <- nnn` with the post-advance PC (40_control_flow.md R102); StackOverflow at `SP =
15`, the spec's own decision D4 (log entry 10). -/
def Obligations.CallPushesThePostAdvancePc : Prop :=
  ∀ (s : State) (nnn : BitVec 12),
    (s.SP.toNat = 15 →
      exec (.call nnn) s = .next { s with PC := s.PC - 2#16, fault := some (.stackOverflow (s.PC - 2#16)) }) ∧
    (s.SP.toNat < 15 →
      ∃ (slots : Vector Word 16) (sp : Byte) (target : Word),
        exec (.call nnn) s = .next { s with SP := sp, stack := slots, PC := target } ∧
        sp.toNat = s.SP.toNat + 1 ∧ target.toNat = nnn.toNat ∧
        ∀ j : Fin 16, slots[j] = if j.val = s.SP.toNat + 1 then s.PC else s.stack[j])

/-- A call immediately followed by a return comes back to the instruction after the call, SP as before the call and only
the used slot changed (95_test_vectors.md S3). -/
def Obligations.CallThenReturnComesBack : Prop :=
  ∀ (s t : State) (nnn : BitVec 12), Runs s (.call nnn) → s.SP.toNat ≤ 14 → step s = .next t → Runs t .ret →
    ∃ slots : Vector Word 16,
      step t = .next { s with PC := s.PC + 2#16, stack := slots } ∧
      ∀ j : Fin 16, slots[j] = if j.val = s.SP.toNat + 1 then s.PC + 2#16 else s.stack[j]

/-- R101, R103: `sys` and `jump` set PC to `nnn` and change nothing else; no return address is pushed. -/
def Obligations.SysAndJumpSetPc : Prop :=
  ∀ (s : State) (nnn : BitVec 12), ∃ target : Word, target.toNat = nnn.toNat ∧
    exec (.sys nnn) s = .next { s with PC := target } ∧ exec (.jump nnn) s = .next { s with PC := target }

/-- `PC <- nnn + V0`, never another register (40_control_flow.md R112); that the sum is not reduced modulo 4096 is the spec's
own decision D21 (log entry 18). -/
def Obligations.JumpOffsetAddsV0 : Prop :=
  ∀ (s : State) (nnn : BitVec 12), ∃ target : Word,
    exec (.jumpOffset nnn) s = .next { s with PC := target } ∧
    target.toNat = nnn.toNat + s.V[(0 : Fin 16)].toNat

/-- R104 to R107: the four compare-and-skip instructions add 2 to PC exactly when their condition holds. -/
def Obligations.SkipsAddTwoWhenTheConditionHolds : Prop :=
  ∀ (s : State) (x y : Fin 16) (kk : Byte),
    (s.V[x].toNat = kk.toNat → exec (.skipEqImm x kk) s = .next { s with PC := s.PC + 2#16 } ∧
      exec (.skipNeImm x kk) s = .next s) ∧
    (s.V[x].toNat ≠ kk.toNat → exec (.skipEqImm x kk) s = .next s ∧
      exec (.skipNeImm x kk) s = .next { s with PC := s.PC + 2#16 }) ∧
    (s.V[x].toNat = s.V[y].toNat → exec (.skipEqReg x y) s = .next { s with PC := s.PC + 2#16 } ∧
      exec (.skipNeReg x y) s = .next s) ∧
    (s.V[x].toNat ≠ s.V[y].toNat → exec (.skipEqReg x y) s = .next s ∧
      exec (.skipNeReg x y) s = .next { s with PC := s.PC + 2#16 })

/-! ### Registers and arithmetic -/

/-- R120, R121, R125: `Vx <- kk`, `Vx <- (Vx + kk) mod 256`, `Vx <- Vy`; no flag, VF changes only as the destination. -/
def Obligations.LoadsAndImmediateAddWriteOnlyVx : Prop :=
  ∀ (s : State) (x y : Fin 16) (kk : Byte),
    (∃ W : Vector Byte 16, exec (.loadImm x kk) s = .next { s with V := W } ∧
      ∀ r : Fin 16, W[r] = if r = x then kk else s.V[r]) ∧
    (∃ W : Vector Byte 16, exec (.addImm x kk) s = .next { s with V := W } ∧
      W[x].toNat = (s.V[x].toNat + kk.toNat) % 256 ∧ ∀ r : Fin 16, r ≠ x → W[r] = s.V[r]) ∧
    (∃ W : Vector Byte 16, exec (.copy x y) s = .next { s with V := W } ∧
      ∀ r : Fin 16, W[r] = if r = x then s.V[y] else s.V[r])

/-- The bitwise operations write Vx and then reset VF (41_registers_alu.md section 3), so VF ends 0 whatever `x` is; for
`x = F` that is the spec's own decision D7 (log entry 8). -/
def Obligations.BitwiseOperationsResetVf : Prop :=
  ∀ (s : State) (x y : Fin 16),
    (∃ W : Vector Byte 16, exec (.orReg x y) s = .next { s with V := W } ∧ W[(15 : Fin 16)] = 0#8 ∧
      (x ≠ 15 → ∀ k < 8, W[x].getLsbD k = (s.V[x].getLsbD k || s.V[y].getLsbD k)) ∧
      ∀ r : Fin 16, r ≠ x → r ≠ 15 → W[r] = s.V[r]) ∧
    (∃ W : Vector Byte 16, exec (.andReg x y) s = .next { s with V := W } ∧ W[(15 : Fin 16)] = 0#8 ∧
      (x ≠ 15 → ∀ k < 8, W[x].getLsbD k = (s.V[x].getLsbD k && s.V[y].getLsbD k)) ∧
      ∀ r : Fin 16, r ≠ x → r ≠ 15 → W[r] = s.V[r]) ∧
    (∃ W : Vector Byte 16, exec (.xorReg x y) s = .next { s with V := W } ∧ W[(15 : Fin 16)] = 0#8 ∧
      (x ≠ 15 → ∀ k < 8, W[x].getLsbD k = (s.V[x].getLsbD k ^^ s.V[y].getLsbD k)) ∧
      ∀ r : Fin 16, r ≠ x → r ≠ 15 → W[r] = s.V[r])

/-- `Vx <- (Vx + Vy) mod 256`, VF the carry (41_registers_alu.md section 4); with `x = F` the sum remains, the spec's own
decision D7 (log entry 8). -/
def Obligations.AddRegGivesSumAndCarry : Prop :=
  ∀ (s : State) (x y : Fin 16), ∃ W : Vector Byte 16, exec (.addReg x y) s = .next { s with V := W } ∧
    W[x].toNat = (s.V[x].toNat + s.V[y].toNat) % 256 ∧
    (x ≠ 15 → W[(15 : Fin 16)].toNat = if s.V[x].toNat + s.V[y].toNat > 255 then 1 else 0) ∧
    ∀ r : Fin 16, r ≠ x → r ≠ 15 → W[r] = s.V[r]

/-- The differences modulo 256, VF 1 exactly when the minuend is strictly greater (41_registers_alu.md section 4); with `x
= F` the difference remains, the spec's own decision D7 (log entry 8). -/
def Obligations.SubtractionsFlagAStrictlyGreaterMinuend : Prop :=
  ∀ (s : State) (x y : Fin 16),
    (∃ W : Vector Byte 16, exec (.sub x y) s = .next { s with V := W } ∧
      W[x].toNat = (s.V[x].toNat + 256 - s.V[y].toNat) % 256 ∧
      (x ≠ 15 → W[(15 : Fin 16)].toNat = if s.V[x].toNat > s.V[y].toNat then 1 else 0) ∧
      ∀ r : Fin 16, r ≠ x → r ≠ 15 → W[r] = s.V[r]) ∧
    (∃ W : Vector Byte 16, exec (.subn x y) s = .next { s with V := W } ∧
      W[x].toNat = (s.V[y].toNat + 256 - s.V[x].toNat) % 256 ∧
      (x ≠ 15 → W[(15 : Fin 16)].toNat = if s.V[y].toNat > s.V[x].toNat then 1 else 0) ∧
      ∀ r : Fin 16, r ≠ x → r ≠ 15 → W[r] = s.V[r])

/-- The shifts by one read Vy, write Vx and leave the bit shifted out in VF (41_registers_alu.md section 5); with `x = F` the
result remains, the spec's own decision D7 (log entry 8). -/
def Obligations.ShiftsReadVyAndFlagTheDroppedBit : Prop :=
  ∀ (s : State) (x y : Fin 16),
    (∃ W : Vector Byte 16, exec (.shr x y) s = .next { s with V := W } ∧
      W[x].toNat = s.V[y].toNat / 2 ∧ (x ≠ 15 → W[(15 : Fin 16)].toNat = s.V[y].toNat % 2) ∧
      ∀ r : Fin 16, r ≠ x → r ≠ 15 → W[r] = s.V[r]) ∧
    (∃ W : Vector Byte 16, exec (.shl x y) s = .next { s with V := W } ∧
      W[x].toNat = s.V[y].toNat * 2 % 256 ∧ (x ≠ 15 → W[(15 : Fin 16)].toNat = s.V[y].toNat / 128) ∧
      ∀ r : Fin 16, r ≠ x → r ≠ 15 → W[r] = s.V[r])

/-- The PRNG state advances by PRNG_NEXT, whatever `kk` is, and Vx is the new state AND `kk` (41_registers_alu.md section
6). It holds for every PRNG_NEXT, which the spec leaves open (D11): `Config.prngNext` is opaque (log entry 3). -/
def Obligations.RandomMasksTheNewPrngState : Prop :=
  ∀ (s : State) (x : Fin 16) (kk : Byte), ∃ (W : Vector Byte 16) (p : Byte),
    exec (.random x kk) s = .next { s with V := W, prng := p } ∧ p = Config.prngNext s.prng ∧
    (∀ k < 8, W[x].getLsbD k = (p.getLsbD k && kk.getLsbD k)) ∧ ∀ r : Fin 16, r ≠ x → W[r] = s.V[r]

/-! ### Index and memory -/

/-- R150, R154: `I <- nnn` and `I <- Vx * 5`, the whole byte and not its low nibble; nothing else changes. -/
def Obligations.LoadIndexAndFontAddrWriteOnlyI : Prop :=
  ∀ (s : State) (x : Fin 16) (nnn : BitVec 12), ∃ a b : Word,
    exec (.loadIndex nnn) s = .next { s with I := a } ∧ a.toNat = nnn.toNat ∧
    exec (.fontAddr x) s = .next { s with I := b } ∧ b.toNat = s.V[x].toNat * 5

/-- `I <- (I + Vx) mod 65536` with no flag (42_index_memory.md R152): the 16-bit wrap is the spec's own decision D21 (log
entry 18). -/
def Obligations.AddIndexWrapsAtSixteenBits : Prop :=
  ∀ (s : State) (x : Fin 16), ∃ a : Word,
    exec (.addIndex x) s = .next { s with I := a } ∧ a.toNat = (s.I.toNat + s.V[x].toNat) % 65536

/-- 42_index_memory.md R156: the three decimal digits of Vx at I, I + 1, I + 2 and no other byte; MemoryBoundsError, and
no byte written, when I + 2 exceeds 0xFFF, the spec's own decision D5 (log entry 10). -/
def Obligations.BcdStoresThreeDigits : Prop :=
  ∀ (s : State) (x : Fin 16),
    (s.I.toNat + 2 ≤ 0xFFF → ∃ m : Memory, exec (.bcd x) s = .next { s with mem := m } ∧
      (m.read (indexAddress s 0)).toNat = s.V[x].toNat / 100 ∧
      (m.read (indexAddress s 1)).toNat = s.V[x].toNat / 10 % 10 ∧
      (m.read (indexAddress s 2)).toNat = s.V[x].toNat % 10 ∧
      ∀ a, a ≠ indexAddress s 0 → a ≠ indexAddress s 1 → a ≠ indexAddress s 2 → m.read a = s.mem.read a) ∧
    (0xFFF < s.I.toNat + 2 →
      exec (.bcd x) s = .next { s with PC := s.PC - 2#16, fault := some (.memoryBoundsError s.I) })

/-- 42_index_memory.md R160: V0 to Vx at I to I + x, no other byte changed, I advanced by x + 1; MemoryBoundsError, and no
byte written, when I + x exceeds 0xFFF, the spec's own decision D5 (log entry 10). -/
def Obligations.StoreRegsCopiesV0ToVx : Prop :=
  ∀ (s : State) (x : Fin 16),
    (s.I.toNat + x.val ≤ 0xFFF → ∃ (m : Memory) (i : Word),
      exec (.storeRegs x) s = .next { s with mem := m, I := i } ∧ i.toNat = s.I.toNat + x.val + 1 ∧
      (∀ r : Fin 16, r ≤ x → m.read (indexAddress s r.val) = s.V[r]) ∧
      ∀ a, (∀ r : Fin 16, r ≤ x → a ≠ indexAddress s r.val) → m.read a = s.mem.read a) ∧
    (0xFFF < s.I.toNat + x.val →
      exec (.storeRegs x) s = .next { s with PC := s.PC - 2#16, fault := some (.memoryBoundsError s.I) })

/-- 42_index_memory.md R162: V0 to Vx from I to I + x, the other registers as they were, I advanced by x + 1;
MemoryBoundsError, and no register written, when I + x exceeds 0xFFF, the spec's own decision D5 (log entry 10). -/
def Obligations.LoadRegsFillsV0ToVx : Prop :=
  ∀ (s : State) (x : Fin 16),
    (s.I.toNat + x.val ≤ 0xFFF → ∃ (W : Vector Byte 16) (i : Word),
      exec (.loadRegs x) s = .next { s with V := W, I := i } ∧ i.toNat = s.I.toNat + x.val + 1 ∧
      ∀ r : Fin 16, W[r] = if r ≤ x then s.readByte (indexAddress s r.val) else s.V[r]) ∧
    (0xFFF < s.I.toNat + x.val →
      exec (.loadRegs x) s = .next { s with PC := s.PC - 2#16, fault := some (.memoryBoundsError s.I) })

/-- 42_index_memory.md R164: a store and, with the same `x` and I set back, a load restore V0 to Vx whatever the registers
held meanwhile, and I ends at the same address after both. -/
def Obligations.StoreThenLoadRestoresRegisters : Prop :=
  ∀ (s t : State) (x : Fin 16) (W : Vector Byte 16), s.I.toNat + x.val ≤ 0xFFF → exec (.storeRegs x) s = .next t →
    ∃ u, exec (.loadRegs x) { t with V := W, I := s.I } = .next u ∧ u.I = t.I ∧
      (∀ r : Fin 16, r ≤ x → u.V[r] = s.V[r]) ∧ (∀ r : Fin 16, ¬ r ≤ x → u.V[r] = W[r])

/-- R51, R52: a byte written is read back, every other byte is as before, and nothing but memory changes. -/
def Obligations.ByteWrittenIsReadBack : Prop :=
  ∀ (s : State) (a b : Nat) (v : Byte),
    (s.writeByte a v).readByte b = (if b = a then v else s.readByte b) ∧
    s.writeByte a v = { s with mem := (s.writeByte a v).mem }

/-- The canonical form (the model's, log entry 15): two canonical memories that read alike at every address of the space are
the same data. -/
def Obligations.CanonicalMemoriesThatReadAlikeAreEqual : Prop :=
  ∀ m m' : Memory, m.wf = true → m'.wf = true → (∀ a < 4096, m.read a = m'.read a) → m = m'

/-- A word that `Fx55` stores over the next instruction is the word the next step executes: the spec's own decision D24
(20_memory.md R64, 70_reset_and_hazards.md R251; log entry 18). -/
def Obligations.StoredWordIsFetchedNext : Prop :=
  ∀ (s : State) (x : Fin 16) (j : Instr), Runs s (.storeRegs x) → 1 ≤ x.val → s.PC.toNat + 2 + x.val ≤ 0xFFF →
    s.I = s.PC + 2#16 → decode (wordOfBytes s.V[(0 : Fin 16)] s.V[(1 : Fin 16)]) = .instr j →
    ∃ t, step s = .next t ∧ t.PC = s.PC + 2#16 ∧ step t = exec j { t with PC := s.PC + 4#16 }

/-! ### Display -/

/-- R170: clear turns every pixel off and changes nothing else, VF included. -/
def Obligations.ClearTurnsEveryPixelOff : Prop :=
  ∀ s : State, ∃ d : Display, exec .clear s = .next { s with disp := d } ∧
    ∀ (r : Fin 32) (c : Fin 64), d[r][c] = false

/-- 43_display.md R173, the limits 63 and 32 read literally (90_conflicts.md C5, log entry 7): a draw with `Vx > 63` or
`Vy > 32` changes nothing at all: no pixel, no VF, no fault. -/
def Obligations.RejectedDrawChangesNothing : Prop :=
  ∀ (s : State) (x y n : Fin 16), 63 < s.V[x].toNat ∨ 32 < s.V[y].toNat → exec (.draw x y n) s = .next s

/-- 43_display.md R172, R174 to R180; the sprite's bit order, `n = 0` and the read order of the coordinates are the spec's
own decisions D9, D15, D17 (log entries 6 and 18): the drawing loops refine the pointwise rule. Every pixel becomes
its exclusive or with the sprite bit that lands on it, the sprite starting at column `Vx mod 64` and row `Vy mod 32`,
clipped and not wrapped; VF is 1 exactly when a sprite bit landed on a lit pixel. The coordinates are read before VF
is written, so `x` and `y` may be 15. -/
def Obligations.DrawXorsTheClippedSprite : Prop :=
  ∀ (s : State) (x y n : Fin 16), s.V[x].toNat ≤ 63 → s.V[y].toNat ≤ 32 →
    (n.val = 0 ∨ s.I.toNat + (n.val - 1) ≤ 0xFFF) →
    ∃ (d : Display) (W : Vector Byte 16), exec (.draw x y n) s = .next { s with disp := d, V := W } ∧
      (∀ (r : Fin 32) (c : Fin 64), d[r][c] = (s.disp[r][c] ^^
        spritePixel (fun k => s.readByte (indexAddress s k)) n.val (s.V[y].toNat % 32) (s.V[x].toNat % 64) r c)) ∧
      ((∃ (r : Fin 32) (c : Fin 64), s.disp[r][c] = true ∧
        spritePixel (fun k => s.readByte (indexAddress s k)) n.val (s.V[y].toNat % 32) (s.V[x].toNat % 64) r c = true) →
        W[(15 : Fin 16)] = 1#8) ∧
      ((∀ (r : Fin 32) (c : Fin 64), s.disp[r][c] = true →
        spritePixel (fun k => s.readByte (indexAddress s k)) n.val (s.V[y].toNat % 32) (s.V[x].toNat % 64) r c = false) →
        W[(15 : Fin 16)] = 0#8) ∧
      ∀ r : Fin 16, r ≠ 15 → W[r] = s.V[r]

/-- 43_display.md R179, the spec's own decisions D5 and D16 (log entries 10 and 18): a draw that is not rejected and whose
sprite bytes pass 0xFFF raises MemoryBoundsError, rows that clipping would not draw included, and changes nothing
else. -/
def Obligations.DrawPastMemoryFaultsBeforeDrawing : Prop :=
  ∀ (s : State) (x y n : Fin 16), s.V[x].toNat ≤ 63 → s.V[y].toNat ≤ 32 → 0 < n.val →
    0xFFF < s.I.toNat + (n.val - 1) →
    exec (.draw x y n) s = .next { s with PC := s.PC - 2#16, fault := some (.memoryBoundsError s.I) }

/-- 43_display.md R177: drawing the same sprite twice at the same place restores every pixel; the second draw sees the
registers of the first, since with `x` or `y` 15 the first draw's flag would move it. -/
def Obligations.DrawingTwiceRestoresTheDisplay : Prop :=
  ∀ (s t : State) (x y n : Fin 16), s.fault = none → exec (.draw x y n) s = .next t → t.fault = none →
    ∃ u, exec (.draw x y n) { t with V := s.V } = .next u ∧ u.disp = s.disp

/-! ### Keypad and timers -/

/-- 44_keypad_timers.md R190, R191; the fault for a value above 15 is the spec's own decision D6 (log entry 10): the key
skips test the current key of index Vx and add 2 to PC when it is held, or is not; a value above 15 raises
KeyIndexError. -/
def Obligations.KeySkipsTestTheHeldKey : Prop :=
  ∀ (s : State) (x : Fin 16),
    (∀ k : Fin 16, k.val = s.V[x].toNat →
      exec (.skipKeyDown x) s = .next { s with PC := if s.keys[k] = true then s.PC + 2#16 else s.PC } ∧
      exec (.skipKeyUp x) s = .next { s with PC := if s.keys[k] = true then s.PC else s.PC + 2#16 }) ∧
    (15 < s.V[x].toNat →
      exec (.skipKeyDown x) s = .next { s with PC := s.PC - 2#16, fault := some (.keyIndexError s.V[x]) } ∧
      exec (.skipKeyUp x) s = .next { s with PC := s.PC - 2#16, fault := some (.keyIndexError s.V[x]) })

/-- R193, R198, R199: `Vx <- DT`, `DT <- Vx`, `ST <- Vx`, each changing that alone. -/
def Obligations.TimersAreReadAndWrittenThroughVx : Prop :=
  ∀ (s : State) (x : Fin 16),
    (∃ W : Vector Byte 16, exec (.readDelay x) s = .next { s with V := W } ∧
      ∀ r : Fin 16, W[r] = if r = x then s.DT else s.V[r]) ∧
    exec (.writeDelay x) s = .next { s with DT := s.V[x] } ∧
    exec (.writeSound x) s = .next { s with ST := s.V[x] }

/-- A key held now and not at the last tick's snapshot goes to Vx and nothing else changes; with no such key PC goes back by
2 and nothing else changes (44_keypad_timers.md R195). That the lowest of several such keys is taken is the spec's own
decision D18 (R197, log entry 18). -/
def Obligations.WaitKeyTakesTheLowestRisingEdgeOrGoesBack : Prop :=
  ∀ (s : State) (x : Fin 16),
    (∀ k : Fin 16, s.keys[k] = true → s.prevKeys[k] = false →
      (∀ j : Fin 16, j < k → ¬ (s.keys[j] = true ∧ s.prevKeys[j] = false)) →
      ∃ W : Vector Byte 16, exec (.waitKey x) s = .next { s with V := W } ∧ W[x].toNat = k.val ∧
        ∀ r : Fin 16, r ≠ x → W[r] = s.V[r]) ∧
    ((∀ k : Fin 16, s.keys[k] = true → s.prevKeys[k] = true) →
      exec (.waitKey x) s = .next { s with PC := s.PC - 2#16 })

/-- 44_keypad_timers.md R196: with no rising edge a STEP of `wait-key` changes nothing at all: PC is back at the
instruction's own address. -/
def Obligations.WaitKeySpinsWithoutAnEdge : Prop :=
  ∀ (s : State) (x : Fin 16), Runs s (.waitKey x) → (∀ k : Fin 16, s.keys[k] = true → s.prevKeys[k] = true) →
    step s = .next s

/-! ### The host's commands -/

/-- The model's choice (log entry 1): the step runs the oldest command the host still has, and with none left one machine
cycle; whatever the command, a STEP among them included, exactly that one is used up (60_exceptions.md R226, R228). -/
def Obligations.CommandsRunInOrderAndAreUsedUp : Prop :=
  ∀ s : State, (∀ c rest, s.pending = c :: rest → step s = runCommand c { s with pending := rest }) ∧
    (s.pending = [] → step s = cycle s) ∧ ∀ t, step s = .next t → t.pending = s.pending.tail

/-- R220: TICK counts both timers down by one while above 0 and takes the key snapshot, halted or not, and changes nothing
else. -/
def Obligations.TickCountsDownAndSnapshotsKeys : Prop :=
  ∀ s : State, ∃ dt st : Byte, runCommand .tick s = .next { s with DT := dt, ST := st, prevKeys := s.keys } ∧
    dt.toNat = s.DT.toNat - 1 ∧ st.toNat = s.ST.toNat - 1

/-- 60_exceptions.md R222: SET_KEY writes one key, halted or not, and changes nothing else. -/
def Obligations.SetKeyWritesOneKey : Prop :=
  ∀ (s : State) (k : Fin 16) (down : Bool) (rest : List Command), s.pending = .setKey k down :: rest →
    ∃ ks : Vector Bool 16, step s = .next { s with keys := ks, pending := rest } ∧
      ∀ j : Fin 16, ks[j] = if j = k then down else s.keys[j]

/-- 70_reset_and_hazards.md R240, 10_state.md R41: RESET sets every component: memory the font at 0x000 to 0x04F and 0
elsewhere, PC 0x200, every register, slot, timer, pixel, key and snapshot 0, no fault, the PRNG state a draw. The
font's bytes are the spec's D10 (log entry 5), the zeros of I, DT, ST and the snapshot its D12 (log entry 14), the
draw its D13, a free value of the model indexed by the count of resets (log entry 4). -/
def Obligations.ResetSetsEveryComponent : Prop :=
  ∀ (s : State) (rest : List Command), s.pending = .reset :: rest → ∃ t, step s = .next t ∧
    (∀ a < 0x50, some (t.readByte a) = font[a]?) ∧ (∀ a, 0x50 ≤ a → t.readByte a = 0#8) ∧
    (∀ r : Fin 16, t.V[r] = 0#8 ∧ t.stack[r] = 0#16 ∧ t.keys[r] = false ∧ t.prevKeys[r] = false) ∧
    t.I = 0#16 ∧ t.PC = 0x200#16 ∧ t.SP = 0#8 ∧ t.DT = 0#8 ∧ t.ST = 0#8 ∧
    (∀ (r : Fin 32) (c : Fin 64), t.disp[r][c] = false) ∧ t.fault = none ∧ t.pending = rest ∧
    t.resets = s.resets + 1 ∧ t.prng = Config.prngSeed t.resets

/-- 70_reset_and_hazards.md R243, the spec's own decision D14 (log entry 18): an image of more than 3584 bytes answers
TooLarge and changes nothing; any other answers Ok and leaves the state RESET leaves, with the image at 0x200 on and
every other byte as RESET leaves it. -/
def Obligations.LoadCopiesTheImageAfterReset : Prop :=
  ∀ (s : State) (image : List Byte) (rest : List Command), s.pending = .load image :: rest →
    (3584 < image.length →
      step s = .next { s with pending := rest } ∧ respond (.load image) s = .tooLarge) ∧
    (image.length ≤ 3584 → ∃ t m, step { s with pending := .reset :: rest } = .next t ∧
      step s = .next { t with mem := m } ∧ respond (.load image) s = .ok ∧
      (∀ k : Nat, ∀ h : k < image.length, m.read (0x200 + k) = image[k]) ∧
      ∀ a, a < 0x200 ∨ 0x200 + image.length ≤ a → m.read a = t.mem.read a)

/-- R224, R225: the queries answer `ST > 0` and the grid, and change nothing. -/
def Obligations.QueriesAnswerAndChangeNothing : Prop :=
  ∀ s : State, runCommand .display s = .next s ∧ respond .display s = .grid s.disp ∧ runCommand .sound s = .next s ∧
    (respond .sound s = .level true ↔ 0 < s.ST.toNat) ∧ (respond .sound s = .level false ↔ s.ST.toNat = 0)
end

