-- ==== Sys2Proof/Laws/Decode.lean ====
section
/-! SUPPORT. The fields of a packed word are the fields it was packed from, and a word's bytes join to the word again
(spec/30_encoding.md R72, R73). -/

namespace Sys2Proof

theorem getLsbD_packNNN (op : BitVec 4) (a : BitVec 12) (i : Nat) :
    (packNNN op a).getLsbD i = if i < 12 then a.getLsbD i else op.getLsbD (i - 12) :=
  BitVec.getLsbD_append

theorem getLsbD_packXKK (op : BitVec 4) (x : Fin 16) (kk : Byte) (i : Nat) :
    (packXKK op x kk).getLsbD i =
      if i < 8 then kk.getLsbD i
      else if i - 8 < 4 then (BitVec.ofFin x : BitVec 4).getLsbD (i - 8) else op.getLsbD (i - 8 - 4) :=
  (BitVec.getLsbD_append (x := op ++ (BitVec.ofFin x : BitVec 4)) (y := kk)).trans (by rw [BitVec.getLsbD_append])

theorem getLsbD_packXYN (op : BitVec 4) (x y : Fin 16) (n : BitVec 4) (i : Nat) :
    (packXYN op x y n).getLsbD i =
      if i < 4 then n.getLsbD i
      else if i - 4 < 4 then (BitVec.ofFin y : BitVec 4).getLsbD (i - 4)
      else if i - 4 - 4 < 4 then (BitVec.ofFin x : BitVec 4).getLsbD (i - 4 - 4) else op.getLsbD (i - 4 - 4 - 4) :=
  (BitVec.getLsbD_append (x := op ++ (BitVec.ofFin x : BitVec 4) ++ (BitVec.ofFin y : BitVec 4)) (y := n)).trans
    (by rw [BitVec.getLsbD_append, BitVec.getLsbD_append])

theorem getLsbD_wordOfBytes (hi lo : Byte) (i : Nat) :
    (wordOfBytes hi lo).getLsbD i = if i < 8 then lo.getLsbD i else hi.getLsbD (i - 8) :=
  BitVec.getLsbD_append

/-- A field cut out of a word whose bits are known. -/
theorem extractLsb'_eq_of_bits {w : Word} {s n : Nat} {v : BitVec n} (h : ∀ i < n, w.getLsbD (s + i) = v.getLsbD i) :
    w.extractLsb' s n = v := by
  apply BitVec.eq_of_getLsbD_eq
  intro i hi
  rw [BitVec.getLsbD_extractLsb']
  simp [hi, h i hi]

/-! ### Format NNN -/

@[simp] theorem opField_packNNN (op : BitVec 4) (a : BitVec 12) : opField (packNNN op a) = op :=
  extractLsb'_eq_of_bits fun i hi => by
    rw [getLsbD_packNNN, if_neg (by omega)]
    congr 1
    omega

@[simp] theorem nnnField_packNNN (op : BitVec 4) (a : BitVec 12) : nnnField (packNNN op a) = a :=
  extractLsb'_eq_of_bits fun i hi => by
    rw [getLsbD_packNNN, if_pos (by omega)]
    congr 1
    omega

/-! ### Formats XKK and XS -/

@[simp] theorem opField_packXKK (op : BitVec 4) (x : Fin 16) (kk : Byte) : opField (packXKK op x kk) = op :=
  extractLsb'_eq_of_bits fun i hi => by
    rw [getLsbD_packXKK, if_neg (by omega), if_neg (by omega)]
    congr 1
    omega

@[simp] theorem xField_packXKK (op : BitVec 4) (x : Fin 16) (kk : Byte) : xField (packXKK op x kk) = x := by
  have h : (packXKK op x kk).extractLsb' 8 4 = BitVec.ofFin x := extractLsb'_eq_of_bits fun i hi => by
    rw [getLsbD_packXKK, if_neg (by omega), if_pos (by omega)]
    congr 1
    omega
  simp [xField, h]

@[simp] theorem kkField_packXKK (op : BitVec 4) (x : Fin 16) (kk : Byte) : kkField (packXKK op x kk) = kk :=
  extractLsb'_eq_of_bits fun i hi => by
    rw [getLsbD_packXKK, if_pos (by omega)]
    congr 1
    omega

/-! ### Formats XYS and XYN -/

@[simp] theorem opField_packXYN (op : BitVec 4) (x y : Fin 16) (n : BitVec 4) : opField (packXYN op x y n) = op :=
  extractLsb'_eq_of_bits fun i hi => by
    rw [getLsbD_packXYN, if_neg (by omega), if_neg (by omega), if_neg (by omega)]
    congr 1
    omega

@[simp] theorem xField_packXYN (op : BitVec 4) (x y : Fin 16) (n : BitVec 4) : xField (packXYN op x y n) = x := by
  have h : (packXYN op x y n).extractLsb' 8 4 = BitVec.ofFin x := extractLsb'_eq_of_bits fun i hi => by
    rw [getLsbD_packXYN, if_neg (by omega), if_neg (by omega), if_pos (by omega)]
    congr 1
    omega
  simp [xField, h]

@[simp] theorem yField_packXYN (op : BitVec 4) (x y : Fin 16) (n : BitVec 4) : yField (packXYN op x y n) = y := by
  have h : (packXYN op x y n).extractLsb' 4 4 = BitVec.ofFin y := extractLsb'_eq_of_bits fun i hi => by
    rw [getLsbD_packXYN, if_neg (by omega), if_pos (by omega)]
    congr 1
    omega
  simp [yField, h]

@[simp] theorem nField_packXYN (op : BitVec 4) (x y : Fin 16) (n : BitVec 4) : nField (packXYN op x y n) = n :=
  extractLsb'_eq_of_bits fun i hi => by
    rw [getLsbD_packXYN, if_pos (by omega)]
    congr 1
    omega

/-! ### One equation per family (R75) -/

/-- A family nibble is one of the sixteen. -/
theorem nibble_cases : ∀ o : BitVec 4, o = 0#4 ∨ o = 1#4 ∨ o = 2#4 ∨ o = 3#4 ∨ o = 4#4 ∨ o = 5#4 ∨ o = 6#4 ∨ o = 7#4 ∨
    o = 8#4 ∨ o = 9#4 ∨ o = 10#4 ∨ o = 11#4 ∨ o = 12#4 ∨ o = 13#4 ∨ o = 14#4 ∨ o = 15#4 := by
  decide

theorem decode_family0 {w : Word} (h : opField w = 0#4) : decode w = decodeFamily0 w := by
  simp [decode, h]

theorem decode_family1 {w : Word} (h : opField w = 1#4) : decode w = .instr (.jump (nnnField w)) := by
  simp [decode, h]

theorem decode_family2 {w : Word} (h : opField w = 2#4) : decode w = .instr (.call (nnnField w)) := by
  simp [decode, h]

theorem decode_family3 {w : Word} (h : opField w = 3#4) : decode w = .instr (.skipEqImm (xField w) (kkField w)) := by
  simp [decode, h]

theorem decode_family4 {w : Word} (h : opField w = 4#4) : decode w = .instr (.skipNeImm (xField w) (kkField w)) := by
  simp [decode, h]

theorem decode_family5 {w : Word} (h : opField w = 5#4) : decode w = if nField w = 0#4 then .instr (.skipEqReg (xField w) (yField w)) else .nop := by
  simp [decode, h]

theorem decode_family6 {w : Word} (h : opField w = 6#4) : decode w = .instr (.loadImm (xField w) (kkField w)) := by
  simp [decode, h]

theorem decode_family7 {w : Word} (h : opField w = 7#4) : decode w = .instr (.addImm (xField w) (kkField w)) := by
  simp [decode, h]

theorem decode_family8 {w : Word} (h : opField w = 8#4) : decode w = decodeFamily8 w := by
  simp [decode, h]

theorem decode_family9 {w : Word} (h : opField w = 9#4) : decode w = if nField w = 0#4 then .instr (.skipNeReg (xField w) (yField w)) else .nop := by
  simp [decode, h]

theorem decode_familyA {w : Word} (h : opField w = 10#4) : decode w = .instr (.loadIndex (nnnField w)) := by
  simp [decode, h]

theorem decode_familyB {w : Word} (h : opField w = 11#4) : decode w = .instr (.jumpOffset (nnnField w)) := by
  simp [decode, h]

theorem decode_familyC {w : Word} (h : opField w = 12#4) : decode w = .instr (.random (xField w) (kkField w)) := by
  simp [decode, h]

theorem decode_familyD {w : Word} (h : opField w = 13#4) : decode w = .instr (.draw (xField w) (yField w) (nField w).toFin) := by
  simp [decode, h]

theorem decode_familyE {w : Word} (h : opField w = 14#4) : decode w = decodeFamilyE w := by
  simp [decode, h]

theorem decode_familyF {w : Word} (h : opField w = 15#4) : decode w = decodeFamilyF w := by
  simp [decode, h]

/-! ### A word is the packing of its own fields -/

theorem packNNN_fields (w : Word) : packNNN (opField w) (nnnField w) = w := by
  apply BitVec.eq_of_getLsbD_eq
  intro i hi
  rw [getLsbD_packNNN]
  interval_cases i <;> simp [opField, nnnField]

theorem packXKK_fields (w : Word) : packXKK (opField w) (xField w) (kkField w) = w := by
  apply BitVec.eq_of_getLsbD_eq
  intro i hi
  rw [getLsbD_packXKK, show (BitVec.ofFin (xField w) : BitVec 4) = w.extractLsb' 8 4 from rfl]
  interval_cases i <;> simp [opField, kkField]

theorem packXYN_fields (w : Word) : packXYN (opField w) (xField w) (yField w) (nField w) = w := by
  apply BitVec.eq_of_getLsbD_eq
  intro i hi
  rw [getLsbD_packXYN, show (BitVec.ofFin (xField w) : BitVec 4) = w.extractLsb' 8 4 from rfl,
    show (BitVec.ofFin (yField w) : BitVec 4) = w.extractLsb' 4 4 from rfl]
  interval_cases i <;> simp [opField, nField]

/-! ### Bytes -/

/-- The two bytes of a word, lowest address first, join to the word (R58). -/
theorem wordOfBytes_bytes (w : Word) : wordOfBytes (w.extractLsb' 8 8) (w.extractLsb' 0 8) = w := by
  apply BitVec.eq_of_getLsbD_eq
  intro i hi
  rw [getLsbD_wordOfBytes]
  split
  · next h => simp [h]
  · next h =>
    have e : 8 + (i - 8) = i := by omega
    have hl : i - 8 < 8 := by omega
    simp [hl, e]

theorem decodeBytes_bytesOfWord (w : Word) (rest : List Byte) :
    decodeBytes (bytesOfWord w ++ rest) = .ok (decode w, rest) := by
  simp [bytesOfWord, decodeBytes, wordOfBytes_bytes]

end Sys2Proof
end

