-- ==== Sys2Proof/Laws/Memory.lean ====
section
/-! SUPPORT. The laws of memory: what a read gives after a write, for one byte and for a run of bytes, and that every
memory operation keeps the canonical form (spec/20_memory.md R51, R52, R62). -/

namespace Sys2Proof.Machine

theorem Memory.read_insert (m : Memory) (a b : Nat) (v : Byte) :
    (m.insert a v).read b = if b = a then v else m.read b := by
  induction m with
  | nil => simp [Memory.insert, Memory.read]
  | cons c m ih =>
    obtain ⟨k, w⟩ := c
    simp only [Memory.insert]
    split
    · simp [Memory.read]
    · split
      · subst_vars
        simp only [Memory.read]
        split <;> simp_all
      · simp only [Memory.read, ih]
        split <;> split <;> simp_all

theorem Memory.read_erase (m : Memory) (a b : Nat) :
    (m.erase a).read b = if b = a then Memory.unlisted a else m.read b := by
  induction m with
  | nil => by_cases h : b = a <;> simp [Memory.erase, Memory.read, h]
  | cons c m ih =>
    obtain ⟨k, w⟩ := c
    simp only [Memory.erase]
    split
    · subst_vars
      rw [ih]
      simp only [Memory.read]
      split <;> rfl
    · simp only [Memory.read, ih]
      split <;> split <;> simp_all

/-- A read after a write: the written byte at its address, the old byte at every other one. -/
theorem Memory.read_write (m : Memory) (a b : Nat) (v : Byte) :
    (m.write a v).read b = if b = a then v else m.read b := by
  unfold Memory.write
  split
  · subst_vars
    exact m.read_erase a b
  · exact m.read_insert a b v

/-- A read after a run of bytes is written: the run's byte inside it, the old byte outside. -/
theorem Memory.read_writeBytes (vs : List Byte) : ∀ (m : Memory) (a b : Nat),
    (m.writeBytes a vs).read b = if h : a ≤ b ∧ b < a + vs.length then vs[b - a]'(by omega) else m.read b := by
  induction vs with
  | nil =>
    intro m a b
    simp [Memory.writeBytes]
  | cons v vs ih =>
    intro m a b
    simp only [Memory.writeBytes, ih, Memory.read_write, List.length_cons]
    by_cases h0 : b = a
    · subst h0
      simp
    · by_cases h1 : a ≤ b ∧ b < a + (vs.length + 1)
      · have h2 : a + 1 ≤ b ∧ b < a + 1 + vs.length := by omega
        obtain ⟨k, rfl⟩ : ∃ k, b = a + 1 + k := ⟨b - (a + 1), by omega⟩
        have e1 : a + 1 + k - a = k + 1 := by omega
        have e2 : a + 1 + k - (a + 1) = k := by omega
        rw [dif_pos h1, dif_pos h2]
        simp only [e1, e2, List.getElem_cons_succ]
      · have h2 : ¬ (a + 1 ≤ b ∧ b < a + 1 + vs.length) := by omega
        rw [dif_neg h1, dif_neg h2, if_neg h0]

theorem Memory.length_readBytes (m : Memory) : ∀ (n a : Nat), (m.readBytes a n).length = n
  | 0, _ => rfl
  | n + 1, a => by simp [Memory.readBytes, Memory.length_readBytes m n (a + 1)]

theorem Memory.getElem_readBytes (m : Memory) : ∀ (n a k : Nat) (h : k < (m.readBytes a n).length),
    (m.readBytes a n)[k] = m.read (a + k)
  | 0, a, k, h => by simp [Memory.readBytes] at h
  | n + 1, a, 0, h => by simp [Memory.readBytes]
  | n + 1, a, k + 1, h => by
    simp only [Memory.readBytes, List.getElem_cons_succ]
    rw [Memory.getElem_readBytes m n (a + 1) k]
    congr 1
    omega

/-! ### The canonical form -/

theorem Memory.wfFrom_mono {m : Memory} {lo lo' : Nat} (h : Memory.wfFrom lo m = true) (hle : lo' ≤ lo) :
    Memory.wfFrom lo' m = true := by
  cases m with
  | nil => rfl
  | cons c m =>
    simp only [Memory.wfFrom, Bool.and_eq_true, decide_eq_true_eq] at h ⊢
    exact ⟨⟨⟨by omega, h.1.1.2⟩, h.1.2⟩, h.2⟩

theorem Memory.wfFrom_insert {m : Memory} {a : Nat} {v : Byte} (ha : a < 4096) (hv : v ≠ Memory.unlisted a) :
    ∀ {lo : Nat}, lo ≤ a → Memory.wfFrom lo m = true → Memory.wfFrom lo (m.insert a v) = true := by
  induction m with
  | nil => intro lo hlo _; simp [Memory.insert, Memory.wfFrom, ha, hv, hlo]
  | cons c m ih =>
    obtain ⟨b, w⟩ := c
    intro lo hlo h
    simp only [Memory.wfFrom, Bool.and_eq_true, decide_eq_true_eq] at h
    simp only [Memory.insert]
    split
    · next hab =>
      simp only [Memory.wfFrom, Bool.and_eq_true, decide_eq_true_eq]
      exact ⟨⟨⟨hlo, ha⟩, by simpa using hv⟩, ⟨⟨⟨by omega, h.1.1.2⟩, h.1.2⟩, h.2⟩⟩
    · split
      · next hab =>
        subst hab
        simp only [Memory.wfFrom, Bool.and_eq_true, decide_eq_true_eq]
        exact ⟨⟨⟨hlo, ha⟩, by simpa using hv⟩, h.2⟩
      · simp only [Memory.wfFrom, Bool.and_eq_true, decide_eq_true_eq]
        exact ⟨h.1, ih (by omega) h.2⟩

theorem Memory.wfFrom_erase {m : Memory} {a : Nat} :
    ∀ {lo : Nat}, Memory.wfFrom lo m = true → Memory.wfFrom lo (m.erase a) = true := by
  induction m with
  | nil => intro lo _; rfl
  | cons c m ih =>
    obtain ⟨b, w⟩ := c
    intro lo h
    simp only [Memory.wfFrom, Bool.and_eq_true, decide_eq_true_eq] at h
    simp only [Memory.erase]
    split
    · exact Memory.wfFrom_mono (ih h.2) (by omega)
    · simp only [Memory.wfFrom, Bool.and_eq_true, decide_eq_true_eq]
      exact ⟨h.1, ih h.2⟩

/-- A write inside the address space keeps the canonical form. -/
theorem Memory.wf_write {m : Memory} {a : Nat} {v : Byte} (ha : a < 4096) (h : m.wf = true) : (m.write a v).wf = true := by
  unfold Memory.write Memory.wf at *
  split
  · exact Memory.wfFrom_erase h
  · next hv => exact Memory.wfFrom_insert ha hv (Nat.zero_le a) h

/-- A run of writes inside the address space keeps the canonical form. -/
theorem Memory.wf_writeBytes : ∀ (vs : List Byte) {m : Memory} {a : Nat}, a + vs.length ≤ 4096 → m.wf = true →
    (m.writeBytes a vs).wf = true
  | [], _, _, _, h => h
  | v :: vs, m, a, hlen, h => by
    simp only [List.length_cons] at hlen
    exact Memory.wf_writeBytes vs (by omega) (Memory.wf_write (by omega) h)

/-- Reset memory lists nothing and so has the canonical form. -/
theorem Memory.wf_reset : State.reset.mem.wf = true := rfl

/-- Reset memory reads as its reset contents. -/
theorem Memory.read_reset (a : Nat) : State.reset.mem.read a = Memory.unlisted a := rfl

end Sys2Proof.Machine
end

