-- ==== Sys2Proof/Laws/State.lean ====
section
/-! SUPPORT. One lemma per field per update of the state, and reading a register, a slot or a key after a write. -/

namespace Sys2Proof.Machine

@[simp] theorem State.setMem_mem (s : State) (m : Memory) : (s.setMem m).mem = m := rfl
@[simp] theorem State.setMem_V (s : State) (m : Memory) : (s.setMem m).V = s.V := rfl
@[simp] theorem State.setMem_I (s : State) (m : Memory) : (s.setMem m).I = s.I := rfl
@[simp] theorem State.setMem_PC (s : State) (m : Memory) : (s.setMem m).PC = s.PC := rfl
@[simp] theorem State.setMem_stack (s : State) (m : Memory) : (s.setMem m).stack = s.stack := rfl
@[simp] theorem State.setMem_SP (s : State) (m : Memory) : (s.setMem m).SP = s.SP := rfl
@[simp] theorem State.setMem_DT (s : State) (m : Memory) : (s.setMem m).DT = s.DT := rfl
@[simp] theorem State.setMem_ST (s : State) (m : Memory) : (s.setMem m).ST = s.ST := rfl
@[simp] theorem State.setMem_disp (s : State) (m : Memory) : (s.setMem m).disp = s.disp := rfl
@[simp] theorem State.setMem_keys (s : State) (m : Memory) : (s.setMem m).keys = s.keys := rfl
@[simp] theorem State.setMem_prevKeys (s : State) (m : Memory) : (s.setMem m).prevKeys = s.prevKeys := rfl
@[simp] theorem State.setMem_prng (s : State) (m : Memory) : (s.setMem m).prng = s.prng := rfl
@[simp] theorem State.setMem_fault (s : State) (m : Memory) : (s.setMem m).fault = s.fault := rfl
@[simp] theorem State.setMem_pending (s : State) (m : Memory) : (s.setMem m).pending = s.pending := rfl
@[simp] theorem State.setMem_resets (s : State) (m : Memory) : (s.setMem m).resets = s.resets := rfl

@[simp] theorem State.setV_mem (s : State) (x : Fin 16) (v : Byte) : (s.setV x v).mem = s.mem := rfl
@[simp] theorem State.setV_V (s : State) (x : Fin 16) (v : Byte) : (s.setV x v).V = s.V.set x v := rfl
@[simp] theorem State.setV_I (s : State) (x : Fin 16) (v : Byte) : (s.setV x v).I = s.I := rfl
@[simp] theorem State.setV_PC (s : State) (x : Fin 16) (v : Byte) : (s.setV x v).PC = s.PC := rfl
@[simp] theorem State.setV_stack (s : State) (x : Fin 16) (v : Byte) : (s.setV x v).stack = s.stack := rfl
@[simp] theorem State.setV_SP (s : State) (x : Fin 16) (v : Byte) : (s.setV x v).SP = s.SP := rfl
@[simp] theorem State.setV_DT (s : State) (x : Fin 16) (v : Byte) : (s.setV x v).DT = s.DT := rfl
@[simp] theorem State.setV_ST (s : State) (x : Fin 16) (v : Byte) : (s.setV x v).ST = s.ST := rfl
@[simp] theorem State.setV_disp (s : State) (x : Fin 16) (v : Byte) : (s.setV x v).disp = s.disp := rfl
@[simp] theorem State.setV_keys (s : State) (x : Fin 16) (v : Byte) : (s.setV x v).keys = s.keys := rfl
@[simp] theorem State.setV_prevKeys (s : State) (x : Fin 16) (v : Byte) : (s.setV x v).prevKeys = s.prevKeys := rfl
@[simp] theorem State.setV_prng (s : State) (x : Fin 16) (v : Byte) : (s.setV x v).prng = s.prng := rfl
@[simp] theorem State.setV_fault (s : State) (x : Fin 16) (v : Byte) : (s.setV x v).fault = s.fault := rfl
@[simp] theorem State.setV_pending (s : State) (x : Fin 16) (v : Byte) : (s.setV x v).pending = s.pending := rfl
@[simp] theorem State.setV_resets (s : State) (x : Fin 16) (v : Byte) : (s.setV x v).resets = s.resets := rfl

@[simp] theorem State.setVF_mem (s : State) (v : Byte) : (s.setVF v).mem = s.mem := rfl
@[simp] theorem State.setVF_V (s : State) (v : Byte) : (s.setVF v).V = s.V.set 15 v := rfl
@[simp] theorem State.setVF_I (s : State) (v : Byte) : (s.setVF v).I = s.I := rfl
@[simp] theorem State.setVF_PC (s : State) (v : Byte) : (s.setVF v).PC = s.PC := rfl
@[simp] theorem State.setVF_stack (s : State) (v : Byte) : (s.setVF v).stack = s.stack := rfl
@[simp] theorem State.setVF_SP (s : State) (v : Byte) : (s.setVF v).SP = s.SP := rfl
@[simp] theorem State.setVF_DT (s : State) (v : Byte) : (s.setVF v).DT = s.DT := rfl
@[simp] theorem State.setVF_ST (s : State) (v : Byte) : (s.setVF v).ST = s.ST := rfl
@[simp] theorem State.setVF_disp (s : State) (v : Byte) : (s.setVF v).disp = s.disp := rfl
@[simp] theorem State.setVF_keys (s : State) (v : Byte) : (s.setVF v).keys = s.keys := rfl
@[simp] theorem State.setVF_prevKeys (s : State) (v : Byte) : (s.setVF v).prevKeys = s.prevKeys := rfl
@[simp] theorem State.setVF_prng (s : State) (v : Byte) : (s.setVF v).prng = s.prng := rfl
@[simp] theorem State.setVF_fault (s : State) (v : Byte) : (s.setVF v).fault = s.fault := rfl
@[simp] theorem State.setVF_pending (s : State) (v : Byte) : (s.setVF v).pending = s.pending := rfl
@[simp] theorem State.setVF_resets (s : State) (v : Byte) : (s.setVF v).resets = s.resets := rfl

@[simp] theorem State.setI_mem (s : State) (v : Word) : (s.setI v).mem = s.mem := rfl
@[simp] theorem State.setI_V (s : State) (v : Word) : (s.setI v).V = s.V := rfl
@[simp] theorem State.setI_I (s : State) (v : Word) : (s.setI v).I = v := rfl
@[simp] theorem State.setI_PC (s : State) (v : Word) : (s.setI v).PC = s.PC := rfl
@[simp] theorem State.setI_stack (s : State) (v : Word) : (s.setI v).stack = s.stack := rfl
@[simp] theorem State.setI_SP (s : State) (v : Word) : (s.setI v).SP = s.SP := rfl
@[simp] theorem State.setI_DT (s : State) (v : Word) : (s.setI v).DT = s.DT := rfl
@[simp] theorem State.setI_ST (s : State) (v : Word) : (s.setI v).ST = s.ST := rfl
@[simp] theorem State.setI_disp (s : State) (v : Word) : (s.setI v).disp = s.disp := rfl
@[simp] theorem State.setI_keys (s : State) (v : Word) : (s.setI v).keys = s.keys := rfl
@[simp] theorem State.setI_prevKeys (s : State) (v : Word) : (s.setI v).prevKeys = s.prevKeys := rfl
@[simp] theorem State.setI_prng (s : State) (v : Word) : (s.setI v).prng = s.prng := rfl
@[simp] theorem State.setI_fault (s : State) (v : Word) : (s.setI v).fault = s.fault := rfl
@[simp] theorem State.setI_pending (s : State) (v : Word) : (s.setI v).pending = s.pending := rfl
@[simp] theorem State.setI_resets (s : State) (v : Word) : (s.setI v).resets = s.resets := rfl

@[simp] theorem State.setPC_mem (s : State) (v : Word) : (s.setPC v).mem = s.mem := rfl
@[simp] theorem State.setPC_V (s : State) (v : Word) : (s.setPC v).V = s.V := rfl
@[simp] theorem State.setPC_I (s : State) (v : Word) : (s.setPC v).I = s.I := rfl
@[simp] theorem State.setPC_PC (s : State) (v : Word) : (s.setPC v).PC = v := rfl
@[simp] theorem State.setPC_stack (s : State) (v : Word) : (s.setPC v).stack = s.stack := rfl
@[simp] theorem State.setPC_SP (s : State) (v : Word) : (s.setPC v).SP = s.SP := rfl
@[simp] theorem State.setPC_DT (s : State) (v : Word) : (s.setPC v).DT = s.DT := rfl
@[simp] theorem State.setPC_ST (s : State) (v : Word) : (s.setPC v).ST = s.ST := rfl
@[simp] theorem State.setPC_disp (s : State) (v : Word) : (s.setPC v).disp = s.disp := rfl
@[simp] theorem State.setPC_keys (s : State) (v : Word) : (s.setPC v).keys = s.keys := rfl
@[simp] theorem State.setPC_prevKeys (s : State) (v : Word) : (s.setPC v).prevKeys = s.prevKeys := rfl
@[simp] theorem State.setPC_prng (s : State) (v : Word) : (s.setPC v).prng = s.prng := rfl
@[simp] theorem State.setPC_fault (s : State) (v : Word) : (s.setPC v).fault = s.fault := rfl
@[simp] theorem State.setPC_pending (s : State) (v : Word) : (s.setPC v).pending = s.pending := rfl
@[simp] theorem State.setPC_resets (s : State) (v : Word) : (s.setPC v).resets = s.resets := rfl

@[simp] theorem State.setStack_mem (s : State) (j : Fin 16) (v : Word) : (s.setStack j v).mem = s.mem := rfl
@[simp] theorem State.setStack_V (s : State) (j : Fin 16) (v : Word) : (s.setStack j v).V = s.V := rfl
@[simp] theorem State.setStack_I (s : State) (j : Fin 16) (v : Word) : (s.setStack j v).I = s.I := rfl
@[simp] theorem State.setStack_PC (s : State) (j : Fin 16) (v : Word) : (s.setStack j v).PC = s.PC := rfl
@[simp] theorem State.setStack_stack (s : State) (j : Fin 16) (v : Word) : (s.setStack j v).stack = s.stack.set j v := rfl
@[simp] theorem State.setStack_SP (s : State) (j : Fin 16) (v : Word) : (s.setStack j v).SP = s.SP := rfl
@[simp] theorem State.setStack_DT (s : State) (j : Fin 16) (v : Word) : (s.setStack j v).DT = s.DT := rfl
@[simp] theorem State.setStack_ST (s : State) (j : Fin 16) (v : Word) : (s.setStack j v).ST = s.ST := rfl
@[simp] theorem State.setStack_disp (s : State) (j : Fin 16) (v : Word) : (s.setStack j v).disp = s.disp := rfl
@[simp] theorem State.setStack_keys (s : State) (j : Fin 16) (v : Word) : (s.setStack j v).keys = s.keys := rfl
@[simp] theorem State.setStack_prevKeys (s : State) (j : Fin 16) (v : Word) : (s.setStack j v).prevKeys = s.prevKeys := rfl
@[simp] theorem State.setStack_prng (s : State) (j : Fin 16) (v : Word) : (s.setStack j v).prng = s.prng := rfl
@[simp] theorem State.setStack_fault (s : State) (j : Fin 16) (v : Word) : (s.setStack j v).fault = s.fault := rfl
@[simp] theorem State.setStack_pending (s : State) (j : Fin 16) (v : Word) : (s.setStack j v).pending = s.pending := rfl
@[simp] theorem State.setStack_resets (s : State) (j : Fin 16) (v : Word) : (s.setStack j v).resets = s.resets := rfl

@[simp] theorem State.setSP_mem (s : State) (v : Byte) : (s.setSP v).mem = s.mem := rfl
@[simp] theorem State.setSP_V (s : State) (v : Byte) : (s.setSP v).V = s.V := rfl
@[simp] theorem State.setSP_I (s : State) (v : Byte) : (s.setSP v).I = s.I := rfl
@[simp] theorem State.setSP_PC (s : State) (v : Byte) : (s.setSP v).PC = s.PC := rfl
@[simp] theorem State.setSP_stack (s : State) (v : Byte) : (s.setSP v).stack = s.stack := rfl
@[simp] theorem State.setSP_SP (s : State) (v : Byte) : (s.setSP v).SP = v := rfl
@[simp] theorem State.setSP_DT (s : State) (v : Byte) : (s.setSP v).DT = s.DT := rfl
@[simp] theorem State.setSP_ST (s : State) (v : Byte) : (s.setSP v).ST = s.ST := rfl
@[simp] theorem State.setSP_disp (s : State) (v : Byte) : (s.setSP v).disp = s.disp := rfl
@[simp] theorem State.setSP_keys (s : State) (v : Byte) : (s.setSP v).keys = s.keys := rfl
@[simp] theorem State.setSP_prevKeys (s : State) (v : Byte) : (s.setSP v).prevKeys = s.prevKeys := rfl
@[simp] theorem State.setSP_prng (s : State) (v : Byte) : (s.setSP v).prng = s.prng := rfl
@[simp] theorem State.setSP_fault (s : State) (v : Byte) : (s.setSP v).fault = s.fault := rfl
@[simp] theorem State.setSP_pending (s : State) (v : Byte) : (s.setSP v).pending = s.pending := rfl
@[simp] theorem State.setSP_resets (s : State) (v : Byte) : (s.setSP v).resets = s.resets := rfl

@[simp] theorem State.setDT_mem (s : State) (v : Byte) : (s.setDT v).mem = s.mem := rfl
@[simp] theorem State.setDT_V (s : State) (v : Byte) : (s.setDT v).V = s.V := rfl
@[simp] theorem State.setDT_I (s : State) (v : Byte) : (s.setDT v).I = s.I := rfl
@[simp] theorem State.setDT_PC (s : State) (v : Byte) : (s.setDT v).PC = s.PC := rfl
@[simp] theorem State.setDT_stack (s : State) (v : Byte) : (s.setDT v).stack = s.stack := rfl
@[simp] theorem State.setDT_SP (s : State) (v : Byte) : (s.setDT v).SP = s.SP := rfl
@[simp] theorem State.setDT_DT (s : State) (v : Byte) : (s.setDT v).DT = v := rfl
@[simp] theorem State.setDT_ST (s : State) (v : Byte) : (s.setDT v).ST = s.ST := rfl
@[simp] theorem State.setDT_disp (s : State) (v : Byte) : (s.setDT v).disp = s.disp := rfl
@[simp] theorem State.setDT_keys (s : State) (v : Byte) : (s.setDT v).keys = s.keys := rfl
@[simp] theorem State.setDT_prevKeys (s : State) (v : Byte) : (s.setDT v).prevKeys = s.prevKeys := rfl
@[simp] theorem State.setDT_prng (s : State) (v : Byte) : (s.setDT v).prng = s.prng := rfl
@[simp] theorem State.setDT_fault (s : State) (v : Byte) : (s.setDT v).fault = s.fault := rfl
@[simp] theorem State.setDT_pending (s : State) (v : Byte) : (s.setDT v).pending = s.pending := rfl
@[simp] theorem State.setDT_resets (s : State) (v : Byte) : (s.setDT v).resets = s.resets := rfl

@[simp] theorem State.setST_mem (s : State) (v : Byte) : (s.setST v).mem = s.mem := rfl
@[simp] theorem State.setST_V (s : State) (v : Byte) : (s.setST v).V = s.V := rfl
@[simp] theorem State.setST_I (s : State) (v : Byte) : (s.setST v).I = s.I := rfl
@[simp] theorem State.setST_PC (s : State) (v : Byte) : (s.setST v).PC = s.PC := rfl
@[simp] theorem State.setST_stack (s : State) (v : Byte) : (s.setST v).stack = s.stack := rfl
@[simp] theorem State.setST_SP (s : State) (v : Byte) : (s.setST v).SP = s.SP := rfl
@[simp] theorem State.setST_DT (s : State) (v : Byte) : (s.setST v).DT = s.DT := rfl
@[simp] theorem State.setST_ST (s : State) (v : Byte) : (s.setST v).ST = v := rfl
@[simp] theorem State.setST_disp (s : State) (v : Byte) : (s.setST v).disp = s.disp := rfl
@[simp] theorem State.setST_keys (s : State) (v : Byte) : (s.setST v).keys = s.keys := rfl
@[simp] theorem State.setST_prevKeys (s : State) (v : Byte) : (s.setST v).prevKeys = s.prevKeys := rfl
@[simp] theorem State.setST_prng (s : State) (v : Byte) : (s.setST v).prng = s.prng := rfl
@[simp] theorem State.setST_fault (s : State) (v : Byte) : (s.setST v).fault = s.fault := rfl
@[simp] theorem State.setST_pending (s : State) (v : Byte) : (s.setST v).pending = s.pending := rfl
@[simp] theorem State.setST_resets (s : State) (v : Byte) : (s.setST v).resets = s.resets := rfl

@[simp] theorem State.setDisp_mem (s : State) (d : Display) : (s.setDisp d).mem = s.mem := rfl
@[simp] theorem State.setDisp_V (s : State) (d : Display) : (s.setDisp d).V = s.V := rfl
@[simp] theorem State.setDisp_I (s : State) (d : Display) : (s.setDisp d).I = s.I := rfl
@[simp] theorem State.setDisp_PC (s : State) (d : Display) : (s.setDisp d).PC = s.PC := rfl
@[simp] theorem State.setDisp_stack (s : State) (d : Display) : (s.setDisp d).stack = s.stack := rfl
@[simp] theorem State.setDisp_SP (s : State) (d : Display) : (s.setDisp d).SP = s.SP := rfl
@[simp] theorem State.setDisp_DT (s : State) (d : Display) : (s.setDisp d).DT = s.DT := rfl
@[simp] theorem State.setDisp_ST (s : State) (d : Display) : (s.setDisp d).ST = s.ST := rfl
@[simp] theorem State.setDisp_disp (s : State) (d : Display) : (s.setDisp d).disp = d := rfl
@[simp] theorem State.setDisp_keys (s : State) (d : Display) : (s.setDisp d).keys = s.keys := rfl
@[simp] theorem State.setDisp_prevKeys (s : State) (d : Display) : (s.setDisp d).prevKeys = s.prevKeys := rfl
@[simp] theorem State.setDisp_prng (s : State) (d : Display) : (s.setDisp d).prng = s.prng := rfl
@[simp] theorem State.setDisp_fault (s : State) (d : Display) : (s.setDisp d).fault = s.fault := rfl
@[simp] theorem State.setDisp_pending (s : State) (d : Display) : (s.setDisp d).pending = s.pending := rfl
@[simp] theorem State.setDisp_resets (s : State) (d : Display) : (s.setDisp d).resets = s.resets := rfl

@[simp] theorem State.setKeys_mem (s : State) (k : Fin 16) (down : Bool) : (s.setKeys k down).mem = s.mem := rfl
@[simp] theorem State.setKeys_V (s : State) (k : Fin 16) (down : Bool) : (s.setKeys k down).V = s.V := rfl
@[simp] theorem State.setKeys_I (s : State) (k : Fin 16) (down : Bool) : (s.setKeys k down).I = s.I := rfl
@[simp] theorem State.setKeys_PC (s : State) (k : Fin 16) (down : Bool) : (s.setKeys k down).PC = s.PC := rfl
@[simp] theorem State.setKeys_stack (s : State) (k : Fin 16) (down : Bool) : (s.setKeys k down).stack = s.stack := rfl
@[simp] theorem State.setKeys_SP (s : State) (k : Fin 16) (down : Bool) : (s.setKeys k down).SP = s.SP := rfl
@[simp] theorem State.setKeys_DT (s : State) (k : Fin 16) (down : Bool) : (s.setKeys k down).DT = s.DT := rfl
@[simp] theorem State.setKeys_ST (s : State) (k : Fin 16) (down : Bool) : (s.setKeys k down).ST = s.ST := rfl
@[simp] theorem State.setKeys_disp (s : State) (k : Fin 16) (down : Bool) : (s.setKeys k down).disp = s.disp := rfl
@[simp] theorem State.setKeys_keys (s : State) (k : Fin 16) (down : Bool) : (s.setKeys k down).keys = s.keys.set k down := rfl
@[simp] theorem State.setKeys_prevKeys (s : State) (k : Fin 16) (down : Bool) : (s.setKeys k down).prevKeys = s.prevKeys := rfl
@[simp] theorem State.setKeys_prng (s : State) (k : Fin 16) (down : Bool) : (s.setKeys k down).prng = s.prng := rfl
@[simp] theorem State.setKeys_fault (s : State) (k : Fin 16) (down : Bool) : (s.setKeys k down).fault = s.fault := rfl
@[simp] theorem State.setKeys_pending (s : State) (k : Fin 16) (down : Bool) : (s.setKeys k down).pending = s.pending := rfl
@[simp] theorem State.setKeys_resets (s : State) (k : Fin 16) (down : Bool) : (s.setKeys k down).resets = s.resets := rfl

@[simp] theorem State.setPrevKeys_mem (s : State) (ks : Vector Bool 16) : (s.setPrevKeys ks).mem = s.mem := rfl
@[simp] theorem State.setPrevKeys_V (s : State) (ks : Vector Bool 16) : (s.setPrevKeys ks).V = s.V := rfl
@[simp] theorem State.setPrevKeys_I (s : State) (ks : Vector Bool 16) : (s.setPrevKeys ks).I = s.I := rfl
@[simp] theorem State.setPrevKeys_PC (s : State) (ks : Vector Bool 16) : (s.setPrevKeys ks).PC = s.PC := rfl
@[simp] theorem State.setPrevKeys_stack (s : State) (ks : Vector Bool 16) : (s.setPrevKeys ks).stack = s.stack := rfl
@[simp] theorem State.setPrevKeys_SP (s : State) (ks : Vector Bool 16) : (s.setPrevKeys ks).SP = s.SP := rfl
@[simp] theorem State.setPrevKeys_DT (s : State) (ks : Vector Bool 16) : (s.setPrevKeys ks).DT = s.DT := rfl
@[simp] theorem State.setPrevKeys_ST (s : State) (ks : Vector Bool 16) : (s.setPrevKeys ks).ST = s.ST := rfl
@[simp] theorem State.setPrevKeys_disp (s : State) (ks : Vector Bool 16) : (s.setPrevKeys ks).disp = s.disp := rfl
@[simp] theorem State.setPrevKeys_keys (s : State) (ks : Vector Bool 16) : (s.setPrevKeys ks).keys = s.keys := rfl
@[simp] theorem State.setPrevKeys_prevKeys (s : State) (ks : Vector Bool 16) : (s.setPrevKeys ks).prevKeys = ks := rfl
@[simp] theorem State.setPrevKeys_prng (s : State) (ks : Vector Bool 16) : (s.setPrevKeys ks).prng = s.prng := rfl
@[simp] theorem State.setPrevKeys_fault (s : State) (ks : Vector Bool 16) : (s.setPrevKeys ks).fault = s.fault := rfl
@[simp] theorem State.setPrevKeys_pending (s : State) (ks : Vector Bool 16) : (s.setPrevKeys ks).pending = s.pending := rfl
@[simp] theorem State.setPrevKeys_resets (s : State) (ks : Vector Bool 16) : (s.setPrevKeys ks).resets = s.resets := rfl

@[simp] theorem State.setPrng_mem (s : State) (v : Byte) : (s.setPrng v).mem = s.mem := rfl
@[simp] theorem State.setPrng_V (s : State) (v : Byte) : (s.setPrng v).V = s.V := rfl
@[simp] theorem State.setPrng_I (s : State) (v : Byte) : (s.setPrng v).I = s.I := rfl
@[simp] theorem State.setPrng_PC (s : State) (v : Byte) : (s.setPrng v).PC = s.PC := rfl
@[simp] theorem State.setPrng_stack (s : State) (v : Byte) : (s.setPrng v).stack = s.stack := rfl
@[simp] theorem State.setPrng_SP (s : State) (v : Byte) : (s.setPrng v).SP = s.SP := rfl
@[simp] theorem State.setPrng_DT (s : State) (v : Byte) : (s.setPrng v).DT = s.DT := rfl
@[simp] theorem State.setPrng_ST (s : State) (v : Byte) : (s.setPrng v).ST = s.ST := rfl
@[simp] theorem State.setPrng_disp (s : State) (v : Byte) : (s.setPrng v).disp = s.disp := rfl
@[simp] theorem State.setPrng_keys (s : State) (v : Byte) : (s.setPrng v).keys = s.keys := rfl
@[simp] theorem State.setPrng_prevKeys (s : State) (v : Byte) : (s.setPrng v).prevKeys = s.prevKeys := rfl
@[simp] theorem State.setPrng_prng (s : State) (v : Byte) : (s.setPrng v).prng = v := rfl
@[simp] theorem State.setPrng_fault (s : State) (v : Byte) : (s.setPrng v).fault = s.fault := rfl
@[simp] theorem State.setPrng_pending (s : State) (v : Byte) : (s.setPrng v).pending = s.pending := rfl
@[simp] theorem State.setPrng_resets (s : State) (v : Byte) : (s.setPrng v).resets = s.resets := rfl

@[simp] theorem State.setFault_mem (s : State) (f : Option Fault) : (s.setFault f).mem = s.mem := rfl
@[simp] theorem State.setFault_V (s : State) (f : Option Fault) : (s.setFault f).V = s.V := rfl
@[simp] theorem State.setFault_I (s : State) (f : Option Fault) : (s.setFault f).I = s.I := rfl
@[simp] theorem State.setFault_PC (s : State) (f : Option Fault) : (s.setFault f).PC = s.PC := rfl
@[simp] theorem State.setFault_stack (s : State) (f : Option Fault) : (s.setFault f).stack = s.stack := rfl
@[simp] theorem State.setFault_SP (s : State) (f : Option Fault) : (s.setFault f).SP = s.SP := rfl
@[simp] theorem State.setFault_DT (s : State) (f : Option Fault) : (s.setFault f).DT = s.DT := rfl
@[simp] theorem State.setFault_ST (s : State) (f : Option Fault) : (s.setFault f).ST = s.ST := rfl
@[simp] theorem State.setFault_disp (s : State) (f : Option Fault) : (s.setFault f).disp = s.disp := rfl
@[simp] theorem State.setFault_keys (s : State) (f : Option Fault) : (s.setFault f).keys = s.keys := rfl
@[simp] theorem State.setFault_prevKeys (s : State) (f : Option Fault) : (s.setFault f).prevKeys = s.prevKeys := rfl
@[simp] theorem State.setFault_prng (s : State) (f : Option Fault) : (s.setFault f).prng = s.prng := rfl
@[simp] theorem State.setFault_fault (s : State) (f : Option Fault) : (s.setFault f).fault = f := rfl
@[simp] theorem State.setFault_pending (s : State) (f : Option Fault) : (s.setFault f).pending = s.pending := rfl
@[simp] theorem State.setFault_resets (s : State) (f : Option Fault) : (s.setFault f).resets = s.resets := rfl

@[simp] theorem State.setPending_mem (s : State) (cs : List Command) : (s.setPending cs).mem = s.mem := rfl
@[simp] theorem State.setPending_V (s : State) (cs : List Command) : (s.setPending cs).V = s.V := rfl
@[simp] theorem State.setPending_I (s : State) (cs : List Command) : (s.setPending cs).I = s.I := rfl
@[simp] theorem State.setPending_PC (s : State) (cs : List Command) : (s.setPending cs).PC = s.PC := rfl
@[simp] theorem State.setPending_stack (s : State) (cs : List Command) : (s.setPending cs).stack = s.stack := rfl
@[simp] theorem State.setPending_SP (s : State) (cs : List Command) : (s.setPending cs).SP = s.SP := rfl
@[simp] theorem State.setPending_DT (s : State) (cs : List Command) : (s.setPending cs).DT = s.DT := rfl
@[simp] theorem State.setPending_ST (s : State) (cs : List Command) : (s.setPending cs).ST = s.ST := rfl
@[simp] theorem State.setPending_disp (s : State) (cs : List Command) : (s.setPending cs).disp = s.disp := rfl
@[simp] theorem State.setPending_keys (s : State) (cs : List Command) : (s.setPending cs).keys = s.keys := rfl
@[simp] theorem State.setPending_prevKeys (s : State) (cs : List Command) : (s.setPending cs).prevKeys = s.prevKeys := rfl
@[simp] theorem State.setPending_prng (s : State) (cs : List Command) : (s.setPending cs).prng = s.prng := rfl
@[simp] theorem State.setPending_fault (s : State) (cs : List Command) : (s.setPending cs).fault = s.fault := rfl
@[simp] theorem State.setPending_pending (s : State) (cs : List Command) : (s.setPending cs).pending = cs := rfl
@[simp] theorem State.setPending_resets (s : State) (cs : List Command) : (s.setPending cs).resets = s.resets := rfl

@[simp] theorem preAdvance_mem (s : State) : (preAdvance s).mem = s.mem := rfl
@[simp] theorem preAdvance_V (s : State) : (preAdvance s).V = s.V := rfl
@[simp] theorem preAdvance_I (s : State) : (preAdvance s).I = s.I := rfl
@[simp] theorem preAdvance_PC (s : State) : (preAdvance s).PC = s.PC + 2#16 := rfl
@[simp] theorem preAdvance_stack (s : State) : (preAdvance s).stack = s.stack := rfl
@[simp] theorem preAdvance_SP (s : State) : (preAdvance s).SP = s.SP := rfl
@[simp] theorem preAdvance_DT (s : State) : (preAdvance s).DT = s.DT := rfl
@[simp] theorem preAdvance_ST (s : State) : (preAdvance s).ST = s.ST := rfl
@[simp] theorem preAdvance_disp (s : State) : (preAdvance s).disp = s.disp := rfl
@[simp] theorem preAdvance_keys (s : State) : (preAdvance s).keys = s.keys := rfl
@[simp] theorem preAdvance_prevKeys (s : State) : (preAdvance s).prevKeys = s.prevKeys := rfl
@[simp] theorem preAdvance_prng (s : State) : (preAdvance s).prng = s.prng := rfl
@[simp] theorem preAdvance_fault (s : State) : (preAdvance s).fault = s.fault := rfl
@[simp] theorem preAdvance_pending (s : State) : (preAdvance s).pending = s.pending := rfl
@[simp] theorem preAdvance_resets (s : State) : (preAdvance s).resets = s.resets := rfl

@[simp] theorem recordFault_mem (f : Fault) (s : State) : (recordFault f s).mem = s.mem := rfl
@[simp] theorem recordFault_V (f : Fault) (s : State) : (recordFault f s).V = s.V := rfl
@[simp] theorem recordFault_I (f : Fault) (s : State) : (recordFault f s).I = s.I := rfl
@[simp] theorem recordFault_PC (f : Fault) (s : State) : (recordFault f s).PC = s.PC := rfl
@[simp] theorem recordFault_stack (f : Fault) (s : State) : (recordFault f s).stack = s.stack := rfl
@[simp] theorem recordFault_SP (f : Fault) (s : State) : (recordFault f s).SP = s.SP := rfl
@[simp] theorem recordFault_DT (f : Fault) (s : State) : (recordFault f s).DT = s.DT := rfl
@[simp] theorem recordFault_ST (f : Fault) (s : State) : (recordFault f s).ST = s.ST := rfl
@[simp] theorem recordFault_disp (f : Fault) (s : State) : (recordFault f s).disp = s.disp := rfl
@[simp] theorem recordFault_keys (f : Fault) (s : State) : (recordFault f s).keys = s.keys := rfl
@[simp] theorem recordFault_prevKeys (f : Fault) (s : State) : (recordFault f s).prevKeys = s.prevKeys := rfl
@[simp] theorem recordFault_prng (f : Fault) (s : State) : (recordFault f s).prng = s.prng := rfl
@[simp] theorem recordFault_fault (f : Fault) (s : State) : (recordFault f s).fault = some f := rfl
@[simp] theorem recordFault_pending (f : Fault) (s : State) : (recordFault f s).pending = s.pending := rfl
@[simp] theorem recordFault_resets (f : Fault) (s : State) : (recordFault f s).resets = s.resets := rfl

@[simp] theorem skipIf_mem (c : Bool) (s : State) : (skipIf c s).mem = s.mem := by
  cases c <;> rfl
@[simp] theorem skipIf_V (c : Bool) (s : State) : (skipIf c s).V = s.V := by
  cases c <;> rfl
@[simp] theorem skipIf_I (c : Bool) (s : State) : (skipIf c s).I = s.I := by
  cases c <;> rfl
@[simp] theorem skipIf_PC (c : Bool) (s : State) : (skipIf c s).PC = if c then s.PC + 2#16 else s.PC := by
  cases c <;> rfl
@[simp] theorem skipIf_stack (c : Bool) (s : State) : (skipIf c s).stack = s.stack := by
  cases c <;> rfl
@[simp] theorem skipIf_SP (c : Bool) (s : State) : (skipIf c s).SP = s.SP := by
  cases c <;> rfl
@[simp] theorem skipIf_DT (c : Bool) (s : State) : (skipIf c s).DT = s.DT := by
  cases c <;> rfl
@[simp] theorem skipIf_ST (c : Bool) (s : State) : (skipIf c s).ST = s.ST := by
  cases c <;> rfl
@[simp] theorem skipIf_disp (c : Bool) (s : State) : (skipIf c s).disp = s.disp := by
  cases c <;> rfl
@[simp] theorem skipIf_keys (c : Bool) (s : State) : (skipIf c s).keys = s.keys := by
  cases c <;> rfl
@[simp] theorem skipIf_prevKeys (c : Bool) (s : State) : (skipIf c s).prevKeys = s.prevKeys := by
  cases c <;> rfl
@[simp] theorem skipIf_prng (c : Bool) (s : State) : (skipIf c s).prng = s.prng := by
  cases c <;> rfl
@[simp] theorem skipIf_fault (c : Bool) (s : State) : (skipIf c s).fault = s.fault := by
  cases c <;> rfl
@[simp] theorem skipIf_pending (c : Bool) (s : State) : (skipIf c s).pending = s.pending := by
  cases c <;> rfl
@[simp] theorem skipIf_resets (c : Bool) (s : State) : (skipIf c s).resets = s.resets := by
  cases c <;> rfl

/-! ### Reading one place after a write -/

theorem State.setV_get (s : State) (x r : Fin 16) (v : Byte) :
    (s.setV x v).V[r] = if r = x then v else s.V[r] := by
  simp [Vector.getElem_set, Fin.ext_iff, eq_comm]

theorem State.setVF_get (s : State) (r : Fin 16) (v : Byte) :
    (s.setVF v).V[r] = if r = 15 then v else s.V[r] :=
  State.setV_get s 15 r v

theorem State.setStack_get (s : State) (j k : Fin 16) (v : Word) :
    (s.setStack j v).stack[k] = if k = j then v else s.stack[k] := by
  simp [Vector.getElem_set, Fin.ext_iff, eq_comm]

theorem State.setKeys_get (s : State) (j k : Fin 16) (b : Bool) :
    (s.setKeys j b).keys[k] = if k = j then b else s.keys[k] := by
  simp [Vector.getElem_set, Fin.ext_iff, eq_comm]

/-- The inverse of the pre-advance, whatever PC is. -/
theorem instrAddress_preAdvance (s : State) : instrAddress (preAdvance s) = s.PC := by
  simp [instrAddress]

/-- Two states with equal fields are equal. -/
theorem State.ext_fields {s t : State} (mem : s.mem = t.mem) (V : s.V = t.V) (I : s.I = t.I) (PC : s.PC = t.PC)
    (stack : s.stack = t.stack) (SP : s.SP = t.SP) (DT : s.DT = t.DT) (ST : s.ST = t.ST) (disp : s.disp = t.disp)
    (keys : s.keys = t.keys) (prevKeys : s.prevKeys = t.prevKeys) (prng : s.prng = t.prng) (fault : s.fault = t.fault)
    (pending : s.pending = t.pending) (resets : s.resets = t.resets) : s = t := by
  cases s; cases t; simp_all

end Sys2Proof.Machine
end

