-- ==== Sys2Proof/Laws/Ops.lean ====
section
/-! SUPPORT. One lemma for each shared operation, saying what it can do: the raise, the guards of the index range, the key
index and the stack pointer, the block transfers, the scan of the keys, the flags. -/

namespace Sys2Proof.Machine

/-! ### Raising a fault -/

theorem raise_eq (f : Fault) (s : State) :
    raise f s = .next { s with PC := s.PC - 2#16, fault := some f } := rfl

/-- A raise from the pre-advanced state leaves the state before the step, but for the fault (R211). -/
theorem raise_preAdvance (f : Fault) (s : State) : raise f (preAdvance s) = .next (recordFault f s) := by
  rw [raise_eq]
  simp [preAdvance, State.setPC, recordFault, State.setFault]

/-! ### Guards -/

theorem indexRangeLegal_iff (s : State) (n : Nat) :
    indexRangeLegal s n = true ↔ n = 0 ∨ s.I.toNat + n ≤ 0x1000 := by
  unfold indexRangeLegal indexAddress
  rw [decide_eq_true_iff]
  omega

theorem withIndexRange_legal {s : State} {n : Nat} (k : Result) (h : n = 0 ∨ s.I.toNat + n ≤ 0x1000) :
    withIndexRange s n k = k := by
  simp [withIndexRange, (indexRangeLegal_iff s n).2 h]

theorem withIndexRange_illegal {s : State} {n : Nat} (k : Result) (h0 : n ≠ 0) (h : 0x1000 < s.I.toNat + n) :
    withIndexRange s n k = raise (.memoryBoundsError s.I) s := by
  have hn : ¬ indexRangeLegal s n = true := by
    rw [indexRangeLegal_iff]
    omega
  simp [withIndexRange, hn]

theorem withIndexRange_cases (s : State) (n : Nat) (k : Result) :
    ((n = 0 ∨ s.I.toNat + n ≤ 0x1000) ∧ withIndexRange s n k = k) ∨
    (n ≠ 0 ∧ 0x1000 < s.I.toNat + n ∧ withIndexRange s n k = raise (.memoryBoundsError s.I) s) := by
  by_cases h : n = 0 ∨ s.I.toNat + n ≤ 0x1000
  · exact .inl ⟨h, withIndexRange_legal k h⟩
  · exact .inr ⟨by omega, by omega, withIndexRange_illegal k (by omega) (by omega)⟩

theorem skipIf_of_true {c : Bool} (h : c = true) (s : State) : skipIf c s = s.setPC (s.PC + 2#16) := by
  subst h
  rfl

theorem skipIf_of_false {c : Bool} (h : c = false) (s : State) : skipIf c s = s := by
  subst h
  rfl

theorem withKeyIndex_legal {s : State} {x j : Fin 16} (k : Fin 16 → Result) (h : j.val = s.V[x].toNat) :
    withKeyIndex s x k = k j := by
  have h16 : s.V[x].toNat < 16 := by omega
  have hj : (⟨s.V[x].toNat, h16⟩ : Fin 16) = j := Fin.ext h.symm
  rw [← hj]
  exact dif_pos h16

theorem withKeyIndex_illegal {s : State} {x : Fin 16} (k : Fin 16 → Result) (h : 15 < s.V[x].toNat) :
    withKeyIndex s x k = raise (.keyIndexError s.V[x]) s :=
  dif_neg (Nat.not_lt.2 h)

theorem withKeyIndex_cases (s : State) (x : Fin 16) (k : Fin 16 → Result) :
    (∃ j : Fin 16, j.val = s.V[x].toNat ∧ withKeyIndex s x k = k j) ∨
    (15 < s.V[x].toNat ∧ withKeyIndex s x k = raise (.keyIndexError s.V[x]) s) := by
  by_cases h : s.V[x].toNat < 16
  · exact .inl ⟨⟨_, h⟩, rfl, withKeyIndex_legal k rfl⟩
  · exact .inr ⟨by omega, withKeyIndex_illegal k (by omega)⟩

theorem withStackPointer_legal {s : State} (k : Fin 16 → Result) (h : s.SP.toNat < 16) :
    withStackPointer s k = k ⟨s.SP.toNat, h⟩ := dif_pos h

theorem withStackPointer_cases (s : State) (k : Fin 16 → Result) :
    (∃ j : Fin 16, j.val = s.SP.toNat ∧ withStackPointer s k = k j) ∨
    (15 < s.SP.toNat ∧ withStackPointer s k = .refused (.stackPointerIllegal s.SP)) := by
  by_cases h : s.SP.toNat < 16
  · exact .inl ⟨⟨_, h⟩, rfl, withStackPointer_legal k h⟩
  · exact .inr ⟨by omega, dif_neg h⟩

/-! ### Registers V0 to Vx -/

theorem mem_regsUpTo (x r : Fin 16) : r ∈ regsUpTo x ↔ r ≤ x := by
  revert x r
  decide

theorem loadEach_eq (s : State) (rs : List (Fin 16)) :
    ∃ W : Vector Byte 16, loadEach s rs = { s with V := W } ∧
      ∀ r : Fin 16, W[r] = if r ∈ rs then s.readByte (indexAddress s r.val) else s.V[r] := by
  suffices h : ∀ (rs : List (Fin 16)) (t : State) (W : Vector Byte 16), t = { s with V := W } →
      ∃ W' : Vector Byte 16,
        rs.foldl (fun t i => t.setV i (s.readByte (indexAddress s i.val))) t = { s with V := W' } ∧
        ∀ r : Fin 16, W'[r] = if r ∈ rs then s.readByte (indexAddress s r.val) else W[r] from
    h rs s s.V rfl
  intro rs
  induction rs with
  | nil => intro t W ht; exact ⟨W, ht, fun r => by simp⟩
  | cons i rs ih =>
    intro t W ht
    obtain ⟨W', h1, h2⟩ := ih (t.setV i (s.readByte (indexAddress s i.val)))
      (W.set i (s.readByte (indexAddress s i.val))) (by subst ht; rfl)
    refine ⟨W', h1, fun r => ?_⟩
    rw [h2]
    by_cases hr : r ∈ rs
    · simp [hr]
    · by_cases hi : r = i
      · subst hi; simp
      · have hv : ¬ (i : Nat) = r := fun e => hi (Fin.ext e.symm)
        simp [hr, hi, hv]

theorem storeEach_eq (s : State) (rs : List (Fin 16)) :
    ∃ m : Memory, storeEach s rs = { s with mem := m } ∧
      ∀ a : Nat, m.read a = if h : s.I.toNat ≤ a ∧ a < s.I.toNat + 16 ∧ ∃ r ∈ rs, s.I.toNat + r.val = a
        then s.V[a - s.I.toNat]'(by omega) else s.mem.read a := by
  suffices h : ∀ (rs : List (Fin 16)) (t : State) (m : Memory), t = { s with mem := m } →
      ∃ m' : Memory,
        rs.foldl (fun t i => t.writeByte (indexAddress s i.val) (regOperand s i)) t = { s with mem := m' } ∧
        ∀ a : Nat, m'.read a = if h : s.I.toNat ≤ a ∧ a < s.I.toNat + 16 ∧ ∃ r ∈ rs, s.I.toNat + r.val = a
          then s.V[a - s.I.toNat]'(by omega) else m.read a from
    h rs s s.mem rfl
  intro rs
  induction rs with
  | nil => intro t m ht; exact ⟨m, ht, fun a => by simp⟩
  | cons i rs ih =>
    intro t m ht
    obtain ⟨m', h1, h2⟩ := ih (t.writeByte (indexAddress s i.val) (regOperand s i))
      (m.write (indexAddress s i.val) (regOperand s i)) (by subst ht; rfl)
    refine ⟨m', h1, fun a => ?_⟩
    rw [h2, Memory.read_write]
    by_cases hr : s.I.toNat ≤ a ∧ a < s.I.toNat + 16 ∧ ∃ r ∈ rs, s.I.toNat + r.val = a
    · have hr' : s.I.toNat ≤ a ∧ a < s.I.toNat + 16 ∧ ∃ r ∈ i :: rs, s.I.toNat + r.val = a :=
        ⟨hr.1, hr.2.1, hr.2.2.imp fun r h => ⟨List.mem_cons_of_mem _ h.1, h.2⟩⟩
      rw [dif_pos hr, dif_pos hr']
    · rw [dif_neg hr]
      by_cases hi : a = indexAddress s i.val
      · have hr' : s.I.toNat ≤ a ∧ a < s.I.toNat + 16 ∧ ∃ r ∈ i :: rs, s.I.toNat + r.val = a := by
          have := i.isLt
          simp only [indexAddress] at hi
          exact ⟨by omega, by omega, i, List.mem_cons_self, hi.symm⟩
        rw [dif_pos hr', if_pos hi]
        simp only [indexAddress] at hi
        subst hi
        simp [regOperand]
      · have hr' : ¬ (s.I.toNat ≤ a ∧ a < s.I.toNat + 16 ∧ ∃ r ∈ i :: rs, s.I.toNat + r.val = a) := by
          rintro ⟨ha, hb, r, hmem, e⟩
          rcases List.mem_cons.1 hmem with rfl | hm
          · exact hi (by simpa [indexAddress] using e.symm)
          · exact hr ⟨ha, hb, r, hm, e⟩
        rw [dif_neg hr', if_neg hi]

/-- The block load of `Fx65`: V0 to Vx from memory, the registers above as they were (R162). -/
theorem loadEach_regsUpTo (s : State) (x : Fin 16) :
    ∃ W : Vector Byte 16, loadEach s (regsUpTo x) = { s with V := W } ∧
      ∀ r : Fin 16, W[r] = if r ≤ x then s.readByte (indexAddress s r.val) else s.V[r] := by
  obtain ⟨W, h, hW⟩ := loadEach_eq s (regsUpTo x)
  exact ⟨W, h, fun r => by simpa only [mem_regsUpTo] using hW r⟩

/-- The block store of `Fx55`: each register up to Vx at its address, every other byte as it was (R160). -/
theorem storeEach_regsUpTo (s : State) (x : Fin 16) :
    ∃ m : Memory, storeEach s (regsUpTo x) = { s with mem := m } ∧
      (∀ r : Fin 16, r ≤ x → m.read (indexAddress s r.val) = s.V[r]) ∧
      ∀ a : Nat, (∀ r : Fin 16, r ≤ x → a ≠ indexAddress s r.val) → m.read a = s.mem.read a := by
  obtain ⟨m, h, hm⟩ := storeEach_eq s (regsUpTo x)
  refine ⟨m, h, fun r hr => ?_, fun a ha => ?_⟩
  · have := r.isLt
    have hin : s.I.toNat ≤ s.I.toNat + r.val ∧ s.I.toNat + r.val < s.I.toNat + 16 ∧
        ∃ q ∈ regsUpTo x, s.I.toNat + q.val = s.I.toNat + r.val :=
      ⟨by omega, by omega, r, (mem_regsUpTo x r).2 hr, rfl⟩
    simp only [indexAddress]
    rw [hm, dif_pos hin]
    simp
  · rw [hm, dif_neg]
    rintro ⟨-, -, r, hr, e⟩
    exact ha r ((mem_regsUpTo x r).1 hr) e.symm

theorem storeEach_wf (s : State) (rs : List (Fin 16)) (h : s.mem.wf = true)
    (hr : ∀ r ∈ rs, s.I.toNat + r.val < 4096) : (storeEach s rs).mem.wf = true := by
  suffices k : ∀ (rs : List (Fin 16)) (t : State), t.mem.wf = true → (∀ r ∈ rs, s.I.toNat + r.val < 4096) →
      (rs.foldl (fun t i => t.writeByte (indexAddress s i.val) (regOperand s i)) t).mem.wf = true from
    k rs s h hr
  intro rs
  induction rs with
  | nil => intro t ht _; exact ht
  | cons i rs ih =>
    intro t ht hrs
    exact ih _ (Memory.wf_write (hrs i List.mem_cons_self) ht) fun r hm => hrs r (List.mem_cons_of_mem _ hm)

/-! ### The scan of the keys -/

theorem firstRisingEdge_some {s : State} {k : Fin 16} :
    firstRisingEdge s = some k ↔ risingEdge s k = true ∧ ∀ j < k, risingEdge s j = false := by
  have key : ∀ (b : Fin 16 → Bool) (k : Fin 16), allKeys.find? b = some k ↔ b k = true ∧ ∀ j < k, b j = false := by
    intro b k
    have hk : allKeys = List.finRange 16 := by decide
    rw [hk, List.find?_eq_some_iff_getElem]
    constructor
    · rintro ⟨h1, i, hi, h2, h3⟩
      refine ⟨h1, fun j hj => ?_⟩
      have e : k.val = i := by rw [← h2]; simp
      simpa using h3 j.val (by omega)
    · rintro ⟨h1, h2⟩
      refine ⟨h1, k.val, by simp, by simp, fun j hj => ?_⟩
      have := h2 ⟨j, by omega⟩ hj
      simpa using this
  exact key (risingEdge s) k

theorem firstRisingEdge_none {s : State} : firstRisingEdge s = none ↔ ∀ k : Fin 16, risingEdge s k = false := by
  have hk : allKeys = List.finRange 16 := by decide
  simp [firstRisingEdge, hk, List.find?_eq_none]

/-! ### The two writes of the `8xy` group (R141) -/

theorem setResultThenFlag_get (s : State) (x r : Fin 16) (value flag : Byte) :
    (setResultThenFlag s x value flag).V[r] = if r = 15 then flag else if r = x then value else s.V[r] := by
  unfold setResultThenFlag
  rw [State.setVF_get, State.setV_get]

theorem setFlagThenResult_get (s : State) (x r : Fin 16) (value flag : Byte) :
    (setFlagThenResult s x value flag).V[r] = if r = x then value else if r = 15 then flag else s.V[r] := by
  unfold setFlagThenResult
  rw [State.setV_get, State.setVF_get]

/-! ### Flags, digits and the advance of I -/

theorem advanceIndex_toNat (s : State) (x : Fin 16) (h : s.I.toNat + x.val ≤ 0xFFF) :
    (advanceIndex s x).I.toNat = s.I.toNat + x.val + 1 := by
  have := x.isLt
  simp only [advanceIndex, State.setI_I]
  rw [BitVec.toNat_add, BitVec.toNat_ofNat]
  omega

theorem flagByte_toNat (b : Bool) : (flagByte b).toNat = if b then 1 else 0 := by
  cases b <;> rfl

theorem carryFlag_toNat (a b : Byte) : (carryFlag a b).toNat = if a.toNat + b.toNat > 255 then 1 else 0 := by
  simp [carryFlag, flagByte_toNat]

theorem greaterFlag_toNat (a b : Byte) : (greaterFlag a b).toNat = if a.toNat > b.toNat then 1 else 0 := by
  simp [greaterFlag, flagByte_toNat]

theorem lowBitFlag_toNat (v : Byte) : (lowBitFlag v).toNat = v.toNat % 2 := by
  revert v; decide

theorem highBitFlag_toNat (v : Byte) : (highBitFlag v).toNat = v.toNat / 128 := by
  revert v; decide

theorem countDown_toNat (v : Byte) : (countDown v).toNat = v.toNat - 1 := by
  revert v; decide

theorem length_bcdDigits (v : Byte) : (bcdDigits v).length = 3 := rfl

end Sys2Proof.Machine
end

