-- ==== Sys2Proof/Laws/Draw.lean ====
section
/-! SUPPORT. What the drawing loops do, pixel by pixel: each pixel becomes the exclusive or with the sprite bit that lands on
it, and the collision is a sprite bit landing on a lit pixel (spec/43_display.md R175 to R178). -/

namespace Sys2Proof.Machine

open Sys2Proof.Safety

/-- R173: the rejection in numbers. -/
theorem drawRejected_iff (vx vy : Byte) : drawRejected vx vy = true ↔ 63 < vx.toNat ∨ 32 < vy.toNat := by
  unfold drawRejected
  rw [decide_eq_true_iff]
  rfl

theorem drawRejected_false {vx vy : Byte} (hx : vx.toNat ≤ 63) (hy : vy.toNat ≤ 32) : drawRejected vx vy = false := by
  rw [← Bool.not_eq_true, drawRejected_iff]
  omega

theorem drawPixel_get (d : DrawState) (row r : Fin 32) (col c : Fin 64) (bit : Bool) :
    (drawPixel d row col bit).disp[r][c] = if r = row ∧ c = col then d.disp[r][c] ^^ bit else d.disp[r][c] := by
  simp only [drawPixel, Fin.getElem_fin, Vector.getElem_set, Fin.ext_iff]
  by_cases hr : (row : Nat) = r
  · obtain rfl := Fin.ext hr
    by_cases hc : (col : Nat) = c
    · obtain rfl := Fin.ext hc
      simp
    · have hc' : ¬ (c : Nat) = col := fun e => hc e.symm
      simp [hc, hc']
  · have hr' : ¬ (r : Nat) = row := fun e => hr e.symm
    simp [hr, hr']

theorem drawRow_get (b : Byte) (row : Fin 32) (sx : Nat) (r : Fin 32) (c : Fin 64) : ∀ (m k : Nat) (d : DrawState),
    (drawRow b row sx (List.range' k m) d).disp[r][c] =
      if r = row ∧ sx + k ≤ c.val ∧ c.val < sx + k + m then d.disp[r][c] ^^ spriteBit b (c.val - sx)
      else d.disp[r][c]
  | 0, k, d => by
    have h : ¬ (r = row ∧ sx + k ≤ c.val ∧ c.val < sx + k + 0) := by omega
    rw [if_neg h]
    rfl
  | m + 1, k, d => by
    rw [List.range'_succ]
    unfold drawRow
    split
    · next hk =>
      rw [drawRow_get b row sx r c m (k + 1), drawPixel_get]
      by_cases hc : c = ⟨sx + k, hk⟩
      · have e : c.val = sx + k := congrArg Fin.val hc
        by_cases hr : r = row
        · have e2 : c.val - sx = k := by omega
          rw [if_neg (by omega), if_pos ⟨hr, hc⟩, if_pos (by omega), e2]
        · rw [if_neg (by tauto), if_neg (by tauto), if_neg (by tauto)]
      · have e : c.val ≠ sx + k := fun e => hc (Fin.ext e)
        have h2 : ¬ (r = row ∧ c = ⟨sx + k, hk⟩) := fun h => hc h.2
        rw [if_neg h2]
        by_cases h3 : r = row ∧ sx + (k + 1) ≤ c.val ∧ c.val < sx + (k + 1) + m
        · rw [if_pos h3, if_pos (by omega)]
        · rw [if_neg h3, if_neg (by omega)]
    · next hk =>
      have := c.isLt
      rw [if_neg (by omega)]

theorem drawRow_collision (b : Byte) (row : Fin 32) (sx : Nat) : ∀ (m k : Nat) (d : DrawState),
    ((drawRow b row sx (List.range' k m) d).collision = true ↔
      d.collision = true ∨ ∃ c : Fin 64, sx + k ≤ c.val ∧ c.val < sx + k + m ∧
        spriteBit b (c.val - sx) = true ∧ d.disp[row][c] = true)
  | 0, k, d => by
    constructor
    · exact fun h => .inl h
    · rintro (h | ⟨c, h1, h2, -⟩)
      · exact h
      · omega
  | m + 1, k, d => by
    rw [List.range'_succ]
    unfold drawRow
    split
    · next hk =>
      rw [drawRow_collision b row sx m (k + 1)]
      have e2 : sx + k - sx = k := by omega
      constructor
      · rintro (h | ⟨c, h1, h2, h3, h4⟩)
        · simp only [drawPixel, Bool.or_eq_true, Bool.and_eq_true] at h
          rcases h with h | ⟨h5, h6⟩
          · exact .inl h
          · exact .inr ⟨⟨sx + k, hk⟩, by simp, by simp, by rw [e2]; exact h5, h6⟩
        · rw [drawPixel_get, if_neg (by rintro ⟨-, rfl⟩; simp at h1)] at h4
          exact .inr ⟨c, by omega, by omega, h3, h4⟩
      · rintro (h | ⟨c, h1, h2, h3, h4⟩)
        · exact .inl (by simp [drawPixel, h])
        · by_cases hc : c = ⟨sx + k, hk⟩
          · subst hc
            rw [e2] at h3
            exact .inl (by simp only [drawPixel, h3, h4]; simp)
          · have e : c.val ≠ sx + k := fun e => hc (Fin.ext e)
            refine .inr ⟨c, by omega, by omega, h3, ?_⟩
            rw [drawPixel_get, if_neg (by tauto)]
            exact h4
    · next hk =>
      constructor
      · exact fun h => .inl h
      · rintro (h | ⟨c, h1, h2, -⟩)
        · exact h
        · have := c.isLt
          omega

theorem columnOffsets_eq : columnOffsets = List.range' 0 8 := rfl

/-- The sprite bit on a pixel of the first row drawn, and of the rows below it. -/
theorem spritePixel_cons (b : Byte) (bs : List Byte) (sx row : Nat) (r : Fin 32) (c : Fin 64) :
    spritePixel (fun k => (b :: bs).getD k 0) (b :: bs).length row sx r c =
      if r.val = row then (decide (sx ≤ c.val ∧ c.val < sx + 8) && spriteBit b (c.val - sx))
      else spritePixel (fun k => bs.getD k 0) bs.length (row + 1) sx r c := by
  unfold spritePixel spriteBit
  by_cases hr : r.val = row
  · have e : r.val - row = 0 := by omega
    simp only [e, List.getD_cons_zero, List.length_cons]
    rw [if_pos hr]
    congr 1
    simp only [decide_eq_decide]
    omega
  · rw [if_neg hr]
    by_cases h : row < r.val
    · have e : r.val - row = (r.val - (row + 1)) + 1 := by omega
      simp only [e, List.getD_cons_succ, List.length_cons]
      congr 1
      simp only [decide_eq_decide]
      omega
    · have h1 : ¬ (row ≤ r.val ∧ r.val < row + (b :: bs).length ∧ sx ≤ c.val ∧ c.val < sx + 8) := by omega
      have h2 : ¬ (row + 1 ≤ r.val ∧ r.val < row + 1 + bs.length ∧ sx ≤ c.val ∧ c.val < sx + 8) := by omega
      simp only [h1, h2, decide_false, Bool.false_and]

/-- A sprite drawn from below the bottom row lands on no pixel. -/
theorem spritePixel_offscreen (f : Nat → Byte) (n sx row : Nat) (h : 32 ≤ row) (r : Fin 32) (c : Fin 64) :
    spritePixel f n row sx r c = false := by
  have := r.isLt
  have h1 : ¬ (row ≤ r.val ∧ r.val < row + n ∧ sx ≤ c.val ∧ c.val < sx + 8) := by omega
  simp [spritePixel, h1]

/-- Every pixel after the drawing loops (R175, R176, R177). -/
theorem drawRows_get (sx : Nat) (r : Fin 32) (c : Fin 64) : ∀ (bs : List Byte) (row : Nat) (d : DrawState),
    (drawRows sx bs row d).disp[r][c] = (d.disp[r][c] ^^ spritePixel (fun k => bs.getD k 0) bs.length row sx r c)
  | [], row, d => by
    have h1 : ¬ (row ≤ r.val ∧ r.val < row + 0 ∧ sx ≤ c.val ∧ c.val < sx + 8) := by omega
    simp only [drawRows, spritePixel, List.length_nil, h1, decide_false, Bool.false_and, Bool.xor_false]
  | b :: bs, row, d => by
    unfold drawRows
    split
    · next hrow =>
      rw [drawRows_get sx r c bs (row + 1), spritePixel_cons, columnOffsets_eq, drawRow_get]
      by_cases hr : r.val = row
      · have hr' : r = ⟨row, hrow⟩ := Fin.ext hr
        have h2 : spritePixel (fun k => bs.getD k 0) bs.length (row + 1) sx r c = false := by
          have h1 : ¬ (row + 1 ≤ r.val ∧ r.val < row + 1 + bs.length ∧ sx ≤ c.val ∧ c.val < sx + 8) := by omega
          simp only [spritePixel, h1, decide_false, Bool.false_and]
        rw [h2, if_pos hr, Bool.xor_false]
        by_cases hc : sx ≤ c.val ∧ c.val < sx + 8
        · rw [if_pos ⟨hr', by omega⟩]
          simp [hc]
        · rw [if_neg (by omega)]
          simp [hc]
      · have hr' : ¬ r = ⟨row, hrow⟩ := fun e => hr (congrArg Fin.val e)
        rw [if_neg (fun h => hr' h.1), if_neg hr]
    · next hrow =>
      rw [spritePixel_offscreen _ _ _ _ (by omega), Bool.xor_false]

/-- The sprite read from memory, as a function of the row. -/
theorem spritePixel_readBytes (m : Memory) (a n sy sx : Nat) (r : Fin 32) (c : Fin 64) :
    spritePixel (fun k => (m.readBytes a n).getD k 0) (m.readBytes a n).length sy sx r c =
      spritePixel (fun k => m.read (a + k)) n sy sx r c := by
  unfold spritePixel
  rw [Memory.length_readBytes]
  by_cases h : sy ≤ r.val ∧ r.val < sy + n ∧ sx ≤ c.val ∧ c.val < sx + 8
  · have hl : r.val - sy < (m.readBytes a n).length := by
      rw [Memory.length_readBytes]
      omega
    have e : (m.readBytes a n).getD (r.val - sy) 0 = m.read (a + (r.val - sy)) := by
      rw [List.getD_eq_getElem _ _ hl, Memory.getElem_readBytes]
    simp only [e]
  · rw [decide_eq_false h]
    rfl

/-- The collision after the drawing loops (R178). -/
theorem drawRows_collision (sx : Nat) : ∀ (bs : List Byte) (row : Nat) (d : DrawState),
    ((drawRows sx bs row d).collision = true ↔
      d.collision = true ∨ ∃ (r : Fin 32) (c : Fin 64),
        spritePixel (fun k => bs.getD k 0) bs.length row sx r c = true ∧ d.disp[r][c] = true)
  | [], row, d => by
    constructor
    · exact fun h => .inl h
    · rintro (h | ⟨r, c, h, -⟩)
      · exact h
      · simp only [spritePixel, List.length_nil, Bool.and_eq_true, decide_eq_true_eq] at h
        omega
  | b :: bs, row, d => by
    unfold drawRows
    split
    · next hrow =>
      have below : ∀ (r : Fin 32) (c : Fin 64), r.val ≠ row →
          (drawRow b ⟨row, hrow⟩ sx columnOffsets d).disp[r][c] = d.disp[r][c] := fun r c hr => by
        rw [columnOffsets_eq, drawRow_get, if_neg (fun h => hr (congrArg Fin.val h.1))]
      rw [drawRows_collision sx bs (row + 1), columnOffsets_eq, drawRow_collision, ← columnOffsets_eq]
      constructor
      · rintro ((h | ⟨c, h1, h2, h3, h4⟩) | ⟨r, c, h1, h2⟩)
        · exact .inl h
        · refine .inr ⟨⟨row, hrow⟩, c, ?_, h4⟩
          have hin : sx ≤ c.val ∧ c.val < sx + 8 := by omega
          rw [spritePixel_cons, if_pos rfl]
          simp [hin, h3]
        · have hr : row + 1 ≤ r.val := by
            simp only [spritePixel, Bool.and_eq_true, decide_eq_true_eq] at h1
            omega
          rw [below r c (by omega)] at h2
          refine .inr ⟨r, c, ?_, h2⟩
          rw [spritePixel_cons, if_neg (by omega)]
          exact h1
      · rintro (h | ⟨r, c, h1, h2⟩)
        · exact .inl (.inl h)
        · rw [spritePixel_cons] at h1
          by_cases hr : r.val = row
          · obtain rfl : r = ⟨row, hrow⟩ := Fin.ext hr
            rw [if_pos rfl, Bool.and_eq_true, decide_eq_true_eq] at h1
            exact .inl (.inr ⟨c, by omega, by omega, h1.2, h2⟩)
          · rw [if_neg hr] at h1
            exact .inr ⟨r, c, h1, by rw [below r c hr]; exact h2⟩
    · next hrow =>
      constructor
      · exact fun h => .inl h
      · rintro (h | ⟨r, c, h, -⟩)
        · exact h
        · rw [spritePixel_offscreen _ _ _ _ (by omega)] at h
          cases h

end Sys2Proof.Machine
end

