-- ==== Sys2Proof/Laws/PerInstr.lean ====
section
/-! SUPPORT. Laws of each instruction as syntax, one lemma per constructor: every encoding matches its own row of the opcode
map (spec/30_encoding.md R84). -/

namespace Sys2Proof.Laws

/-- The row of an instruction's own mnemonic is in the map, and the instruction's word matches it. -/
def RowPattern.Statement (i : Instr) : Prop :=
  ∃ row ∈ opcodeTable, row.mnemonic = i.mnemonic ∧ row.matchesWord (encode i) = true

/-- A packed word under a mask that keeps the family nibble alone. -/
theorem matches_packNNN (m : String) (op : BitVec 4) (a : BitVec 12) :
    Row.matchesWord ⟨m, 0xF000, op ++ 0#12⟩ (packNNN op a) = true := by
  simp only [Row.matchesWord, beq_iff_eq]
  apply BitVec.eq_of_getLsbD_eq
  intro i hi
  rw [BitVec.getLsbD_and, getLsbD_packNNN, BitVec.getLsbD_append]
  interval_cases i <;> simp

theorem matches_packXKK (m : String) (op : BitVec 4) (x : Fin 16) (kk : Byte) :
    Row.matchesWord ⟨m, 0xF000, op ++ 0#12⟩ (packXKK op x kk) = true := by
  simp only [Row.matchesWord, beq_iff_eq]
  apply BitVec.eq_of_getLsbD_eq
  intro i hi
  rw [BitVec.getLsbD_and, getLsbD_packXKK, BitVec.getLsbD_append]
  interval_cases i <;> simp

theorem matches_packXS (m : String) (op : BitVec 4) (x : Fin 16) (kk : Byte) :
    Row.matchesWord ⟨m, 0xF0FF, op ++ 0#4 ++ kk⟩ (packXKK op x kk) = true := by
  simp only [Row.matchesWord, beq_iff_eq]
  apply BitVec.eq_of_getLsbD_eq
  intro i hi
  rw [BitVec.getLsbD_and, getLsbD_packXKK, BitVec.getLsbD_append, BitVec.getLsbD_append]
  interval_cases i <;> simp

theorem matches_packXYS (m : String) (op : BitVec 4) (x y : Fin 16) (n : BitVec 4) :
    Row.matchesWord ⟨m, 0xF00F, op ++ 0#8 ++ n⟩ (packXYN op x y n) = true := by
  simp only [Row.matchesWord, beq_iff_eq]
  apply BitVec.eq_of_getLsbD_eq
  intro i hi
  rw [BitVec.getLsbD_and, getLsbD_packXYN, BitVec.getLsbD_append, BitVec.getLsbD_append]
  interval_cases i <;> simp

theorem matches_packXYN (m : String) (op : BitVec 4) (x y : Fin 16) (n : BitVec 4) :
    Row.matchesWord ⟨m, 0xF000, op ++ 0#12⟩ (packXYN op x y n) = true := by
  simp only [Row.matchesWord, beq_iff_eq]
  apply BitVec.eq_of_getLsbD_eq
  intro i hi
  rw [BitVec.getLsbD_and, getLsbD_packXYN, BitVec.getLsbD_append]
  interval_cases i <;> simp

theorem RowPattern.clear : RowPattern.Statement .clear :=
  ⟨⟨"clear", 0xFFFF, 0x00E0⟩, by decide, rfl, rfl⟩

theorem RowPattern.ret : RowPattern.Statement .ret :=
  ⟨⟨"return", 0xFFFF, 0x00EE⟩, by decide, rfl, rfl⟩

theorem RowPattern.sys (nnn : BitVec 12) : RowPattern.Statement (.sys nnn) :=
  ⟨⟨"sys", 0xF000, 0x0000⟩, by decide, rfl, matches_packNNN "sys" 0x0#4 nnn⟩

theorem RowPattern.jump (nnn : BitVec 12) : RowPattern.Statement (.jump nnn) :=
  ⟨⟨"jump", 0xF000, 0x1000⟩, by decide, rfl, matches_packNNN "jump" 0x1#4 nnn⟩

theorem RowPattern.call (nnn : BitVec 12) : RowPattern.Statement (.call nnn) :=
  ⟨⟨"call", 0xF000, 0x2000⟩, by decide, rfl, matches_packNNN "call" 0x2#4 nnn⟩

theorem RowPattern.skipEqImm (x : Fin 16) (kk : Byte) : RowPattern.Statement (.skipEqImm x kk) :=
  ⟨⟨"skip-eq-imm", 0xF000, 0x3000⟩, by decide, rfl, matches_packXKK "skip-eq-imm" 0x3#4 x kk⟩

theorem RowPattern.skipNeImm (x : Fin 16) (kk : Byte) : RowPattern.Statement (.skipNeImm x kk) :=
  ⟨⟨"skip-ne-imm", 0xF000, 0x4000⟩, by decide, rfl, matches_packXKK "skip-ne-imm" 0x4#4 x kk⟩

theorem RowPattern.skipEqReg (x : Fin 16) (y : Fin 16) : RowPattern.Statement (.skipEqReg x y) :=
  ⟨⟨"skip-eq-reg", 0xF00F, 0x5000⟩, by decide, rfl, matches_packXYS "skip-eq-reg" 0x5#4 x y 0x0#4⟩

theorem RowPattern.loadImm (x : Fin 16) (kk : Byte) : RowPattern.Statement (.loadImm x kk) :=
  ⟨⟨"load-imm", 0xF000, 0x6000⟩, by decide, rfl, matches_packXKK "load-imm" 0x6#4 x kk⟩

theorem RowPattern.addImm (x : Fin 16) (kk : Byte) : RowPattern.Statement (.addImm x kk) :=
  ⟨⟨"add-imm", 0xF000, 0x7000⟩, by decide, rfl, matches_packXKK "add-imm" 0x7#4 x kk⟩

theorem RowPattern.copy (x : Fin 16) (y : Fin 16) : RowPattern.Statement (.copy x y) :=
  ⟨⟨"copy", 0xF00F, 0x8000⟩, by decide, rfl, matches_packXYS "copy" 0x8#4 x y 0x0#4⟩

theorem RowPattern.orReg (x : Fin 16) (y : Fin 16) : RowPattern.Statement (.orReg x y) :=
  ⟨⟨"or", 0xF00F, 0x8001⟩, by decide, rfl, matches_packXYS "or" 0x8#4 x y 0x1#4⟩

theorem RowPattern.andReg (x : Fin 16) (y : Fin 16) : RowPattern.Statement (.andReg x y) :=
  ⟨⟨"and", 0xF00F, 0x8002⟩, by decide, rfl, matches_packXYS "and" 0x8#4 x y 0x2#4⟩

theorem RowPattern.xorReg (x : Fin 16) (y : Fin 16) : RowPattern.Statement (.xorReg x y) :=
  ⟨⟨"xor", 0xF00F, 0x8003⟩, by decide, rfl, matches_packXYS "xor" 0x8#4 x y 0x3#4⟩

theorem RowPattern.addReg (x : Fin 16) (y : Fin 16) : RowPattern.Statement (.addReg x y) :=
  ⟨⟨"add-reg", 0xF00F, 0x8004⟩, by decide, rfl, matches_packXYS "add-reg" 0x8#4 x y 0x4#4⟩

theorem RowPattern.sub (x : Fin 16) (y : Fin 16) : RowPattern.Statement (.sub x y) :=
  ⟨⟨"sub", 0xF00F, 0x8005⟩, by decide, rfl, matches_packXYS "sub" 0x8#4 x y 0x5#4⟩

theorem RowPattern.shr (x : Fin 16) (y : Fin 16) : RowPattern.Statement (.shr x y) :=
  ⟨⟨"shr", 0xF00F, 0x8006⟩, by decide, rfl, matches_packXYS "shr" 0x8#4 x y 0x6#4⟩

theorem RowPattern.subn (x : Fin 16) (y : Fin 16) : RowPattern.Statement (.subn x y) :=
  ⟨⟨"subn", 0xF00F, 0x8007⟩, by decide, rfl, matches_packXYS "subn" 0x8#4 x y 0x7#4⟩

theorem RowPattern.shl (x : Fin 16) (y : Fin 16) : RowPattern.Statement (.shl x y) :=
  ⟨⟨"shl", 0xF00F, 0x800E⟩, by decide, rfl, matches_packXYS "shl" 0x8#4 x y 0xE#4⟩

theorem RowPattern.skipNeReg (x : Fin 16) (y : Fin 16) : RowPattern.Statement (.skipNeReg x y) :=
  ⟨⟨"skip-ne-reg", 0xF00F, 0x9000⟩, by decide, rfl, matches_packXYS "skip-ne-reg" 0x9#4 x y 0x0#4⟩

theorem RowPattern.loadIndex (nnn : BitVec 12) : RowPattern.Statement (.loadIndex nnn) :=
  ⟨⟨"load-index", 0xF000, 0xA000⟩, by decide, rfl, matches_packNNN "load-index" 0xA#4 nnn⟩

theorem RowPattern.jumpOffset (nnn : BitVec 12) : RowPattern.Statement (.jumpOffset nnn) :=
  ⟨⟨"jump-offset", 0xF000, 0xB000⟩, by decide, rfl, matches_packNNN "jump-offset" 0xB#4 nnn⟩

theorem RowPattern.random (x : Fin 16) (kk : Byte) : RowPattern.Statement (.random x kk) :=
  ⟨⟨"random", 0xF000, 0xC000⟩, by decide, rfl, matches_packXKK "random" 0xC#4 x kk⟩

theorem RowPattern.draw (x : Fin 16) (y : Fin 16) (n : Fin 16) : RowPattern.Statement (.draw x y n) :=
  ⟨⟨"draw", 0xF000, 0xD000⟩, by decide, rfl, matches_packXYN "draw" 0xD#4 x y (BitVec.ofFin n)⟩

theorem RowPattern.skipKeyDown (x : Fin 16) : RowPattern.Statement (.skipKeyDown x) :=
  ⟨⟨"skip-key-down", 0xF0FF, 0xE09E⟩, by decide, rfl, matches_packXS "skip-key-down" 0xE#4 x 0x9E#8⟩

theorem RowPattern.skipKeyUp (x : Fin 16) : RowPattern.Statement (.skipKeyUp x) :=
  ⟨⟨"skip-key-up", 0xF0FF, 0xE0A1⟩, by decide, rfl, matches_packXS "skip-key-up" 0xE#4 x 0xA1#8⟩

theorem RowPattern.readDelay (x : Fin 16) : RowPattern.Statement (.readDelay x) :=
  ⟨⟨"read-delay", 0xF0FF, 0xF007⟩, by decide, rfl, matches_packXS "read-delay" 0xF#4 x 0x07#8⟩

theorem RowPattern.waitKey (x : Fin 16) : RowPattern.Statement (.waitKey x) :=
  ⟨⟨"wait-key", 0xF0FF, 0xF00A⟩, by decide, rfl, matches_packXS "wait-key" 0xF#4 x 0x0A#8⟩

theorem RowPattern.writeDelay (x : Fin 16) : RowPattern.Statement (.writeDelay x) :=
  ⟨⟨"write-delay", 0xF0FF, 0xF015⟩, by decide, rfl, matches_packXS "write-delay" 0xF#4 x 0x15#8⟩

theorem RowPattern.writeSound (x : Fin 16) : RowPattern.Statement (.writeSound x) :=
  ⟨⟨"write-sound", 0xF0FF, 0xF018⟩, by decide, rfl, matches_packXS "write-sound" 0xF#4 x 0x18#8⟩

theorem RowPattern.addIndex (x : Fin 16) : RowPattern.Statement (.addIndex x) :=
  ⟨⟨"add-index", 0xF0FF, 0xF01E⟩, by decide, rfl, matches_packXS "add-index" 0xF#4 x 0x1E#8⟩

theorem RowPattern.fontAddr (x : Fin 16) : RowPattern.Statement (.fontAddr x) :=
  ⟨⟨"font-addr", 0xF0FF, 0xF029⟩, by decide, rfl, matches_packXS "font-addr" 0xF#4 x 0x29#8⟩

theorem RowPattern.bcd (x : Fin 16) : RowPattern.Statement (.bcd x) :=
  ⟨⟨"bcd", 0xF0FF, 0xF033⟩, by decide, rfl, matches_packXS "bcd" 0xF#4 x 0x33#8⟩

theorem RowPattern.storeRegs (x : Fin 16) : RowPattern.Statement (.storeRegs x) :=
  ⟨⟨"store-regs", 0xF0FF, 0xF055⟩, by decide, rfl, matches_packXS "store-regs" 0xF#4 x 0x55#8⟩

theorem RowPattern.loadRegs (x : Fin 16) : RowPattern.Statement (.loadRegs x) :=
  ⟨⟨"load-regs", 0xF0FF, 0xF065⟩, by decide, rfl, matches_packXS "load-regs" 0xF#4 x 0x65#8⟩

end Sys2Proof.Laws
end

