-- ==== Sys2Proof/Laws/Step.lean ====
section
/-! SUPPORT. What one step can do, said once: an instruction raises the fault of its table entry, or completes with the fault
record as it was, or is refused for an illegal SP; and the cycle and the commands in terms of it. -/

namespace Sys2Proof.Machine

open Sys2Proof.Safety

/-! ### The cycle -/

theorem cycle_halted {s : State} {f : Fault} (h : s.fault = some f) : cycle s = .fault f := by
  simp [cycle, h]

theorem cycle_out_of_range {s : State} (h : s.fault = none) (hpc : 0xFFE < s.PC.toNat) :
    cycle s = .next (recordFault (.decodeError s.PC) s) := by
  have : ¬ s.PC.toNat ≤ 0xFFE := by omega
  simp [cycle, h, fetchLegal, this]

theorem cycle_fetch {s : State} (h : s.fault = none) (hpc : s.PC.toNat ≤ 0xFFE) :
    cycle s = execDecoded (decode (fetchWord s)) (preAdvance s) := by
  simp [cycle, h, fetchLegal, hpc]

theorem cycle_runs {s : State} {i : Instr} (h : Runs s i) : cycle s = exec i (preAdvance s) := by
  rw [cycle_fetch h.live h.pc]
  unfold fetchWord
  rw [h.word]
  rfl

theorem step_of_no_command {s : State} (h : s.pending = []) : step s = cycle s := by
  simp [step, transition, h]

theorem step_of_command {s : State} {c : Command} {rest : List Command} (h : s.pending = c :: rest) :
    step s = runCommand c (s.setPending rest) := by
  simp [step, transition, h]

theorem step_runs {s : State} {i : Instr} (h : Runs s i) : step s = exec i (preAdvance s) := by
  rw [step_of_no_command h.host, cycle_runs h]

/-! ### One instruction -/

/-- What an instruction that completes leaves alone whatever it is: the fault record, the keys, the snapshot, the host's
commands and the count of resets. -/
structure Quiet (s t : State) : Prop where
  fault : t.fault = s.fault
  keys : t.keys = s.keys
  prevKeys : t.prevKeys = s.prevKeys
  pending : t.pending = s.pending
  resets : t.resets = s.resets

/-- The three outcomes of an instruction. -/
inductive ExecCases (i : Instr) (s : State) : Prop where
  /-- It raises the fault of its table entry. -/
  | raises (f : Fault) (h : faultOf i s = some f) (e : exec i s = raise f s)
  /-- It completes. -/
  | completes (t : State) (h : faultOf i s = none) (e : exec i s = .next t) (q : Quiet s t)
  /-- SP is illegal, which no run reaches. -/
  | illegal (h : 15 < s.SP.toNat) (e : exec i s = .refused (.stackPointerIllegal s.SP))

theorem loadEach_quiet (s : State) (rs : List (Fin 16)) : Quiet s (loadEach s rs) := by
  obtain ⟨W, h, -⟩ := loadEach_eq s rs
  rw [h]
  exact ⟨rfl, rfl, rfl, rfl, rfl⟩

theorem storeEach_quiet (s : State) (rs : List (Fin 16)) : Quiet s (storeEach s rs) := by
  obtain ⟨m, h, -⟩ := storeEach_eq s rs
  rw [h]
  exact ⟨rfl, rfl, rfl, rfl, rfl⟩

theorem skipIf_quiet (c : Bool) (s : State) : Quiet s (skipIf c s) := by
  constructor <;> simp

theorem withIndexRange_execCases {i : Instr} {s : State} {n : Nat} {t : State}
    (e : exec i s = withIndexRange s n (.next t))
    (hf : ∀ f, n ≠ 0 → 0x1000 < s.I.toNat + n → f = Fault.memoryBoundsError s.I → faultOf i s = some f)
    (hn : n = 0 ∨ s.I.toNat + n ≤ 0x1000 → faultOf i s = none) (q : Quiet s t) : ExecCases i s := by
  rcases withIndexRange_cases s n (.next t) with ⟨h, h2⟩ | ⟨h0, h1, h2⟩
  · exact .completes t (hn h) (e.trans h2) q
  · exact .raises _ (hf _ h0 h1 rfl) (e.trans h2)

/-- Every instruction in every state: its outcome, the fault table deciding between raising and completing. -/
theorem exec_cases (i : Instr) (s : State) : ExecCases i s := by
  cases i with
  | clear | sys | jump | loadImm | addImm | copy | orReg | andReg | xorReg | addReg | sub | shr | subn | shl | loadIndex
  | jumpOffset | random | readDelay | writeDelay | writeSound | addIndex | fontAddr =>
    exact .completes _ rfl rfl ⟨rfl, rfl, rfl, rfl, rfl⟩
  | skipEqImm | skipNeImm | skipEqReg | skipNeReg => exact .completes _ rfl rfl (skipIf_quiet _ _)
  | ret =>
    rcases withStackPointer_cases s (fun sp =>
      if sp = 0 then raise (.stackUnderflow (instrAddress s)) s
      else .next ((s.setPC s.stack[sp]).setSP (s.SP - 1#8))) with ⟨j, hj, e⟩ | ⟨h, e⟩
    · by_cases h0 : j = 0
      · have hs : s.SP.toNat = 0 := by rw [← hj, h0]; rfl
        rw [if_pos h0] at e
        exact .raises _ (if_pos hs) e
      · have hs : ¬ s.SP.toNat = 0 := fun h => h0 (Fin.ext (by rw [hj, h]; rfl))
        rw [if_neg h0] at e
        exact .completes _ (if_neg hs) e ⟨rfl, rfl, rfl, rfl, rfl⟩
    · exact .illegal h e
  | call nnn =>
    rcases withStackPointer_cases s (fun sp =>
      if sp = 15 then raise (.stackOverflow (instrAddress s)) s
      else .next (((s.setSP (s.SP + 1#8)).setStack (sp + 1) s.PC).setPC (addressOperand nnn))) with ⟨j, hj, e⟩ | ⟨h, e⟩
    · by_cases h0 : j = 15
      · have hs : s.SP.toNat = 15 := by rw [← hj, h0]; rfl
        rw [if_pos h0] at e
        exact .raises _ (if_pos hs) e
      · have hs : ¬ s.SP.toNat = 15 := fun h => h0 (Fin.ext (by rw [hj, h]; rfl))
        rw [if_neg h0] at e
        exact .completes _ (if_neg hs) e ⟨rfl, rfl, rfl, rfl, rfl⟩
    · exact .illegal h e
  | skipKeyDown x =>
    rcases withKeyIndex_cases s x (fun k => .next (skipIf s.keys[k] s)) with ⟨j, hj, e⟩ | ⟨h, e⟩
    · have hs : ¬ 15 < s.V[x].toNat := by omega
      exact .completes _ (if_neg hs) e (skipIf_quiet _ _)
    · exact .raises _ (if_pos h) e
  | skipKeyUp x =>
    rcases withKeyIndex_cases s x (fun k => .next (skipIf (!s.keys[k]) s)) with ⟨j, hj, e⟩ | ⟨h, e⟩
    · have hs : ¬ 15 < s.V[x].toNat := by omega
      exact .completes _ (if_neg hs) e (skipIf_quiet _ _)
    · exact .raises _ (if_pos h) e
  | waitKey x =>
    cases h : firstRisingEdge s with
    | none =>
      have e : exec (.waitKey x) s = .next (s.setPC (s.PC - 2#16)) := by simp only [exec, execWaitKey, h]
      exact .completes _ rfl e ⟨rfl, rfl, rfl, rfl, rfl⟩
    | some k =>
      have e : exec (.waitKey x) s = .next (s.setV x (BitVec.ofNat 8 k.val)) := by simp only [exec, execWaitKey, h]
      exact .completes _ rfl e ⟨rfl, rfl, rfl, rfl, rfl⟩
  | bcd x =>
    refine withIndexRange_execCases (n := 3) rfl ?_ ?_ ⟨rfl, rfl, rfl, rfl, rfl⟩
    · rintro f - h rfl
      exact if_pos (by omega)
    · intro h
      exact if_neg (by omega)
  | storeRegs x =>
    have q := storeEach_quiet s (regsUpTo x)
    refine withIndexRange_execCases (n := x.val + 1) rfl ?_ ?_ ⟨q.1, q.2, q.3, q.4, q.5⟩
    · rintro f - h rfl
      exact if_pos (by omega)
    · intro h
      exact if_neg (by omega)
  | loadRegs x =>
    have q := loadEach_quiet s (regsUpTo x)
    refine withIndexRange_execCases (n := x.val + 1) rfl ?_ ?_ ⟨q.1, q.2, q.3, q.4, q.5⟩
    · rintro f - h rfl
      exact if_pos (by omega)
    · intro h
      exact if_neg (by omega)
  | draw x y n =>
    cases hd : drawRejected s.V[x] s.V[y] with
    | false =>
      have hr : ¬ (63 < s.V[x].toNat ∨ 32 < s.V[y].toNat) := by
        rw [← drawRejected_iff, hd]
        decide
      refine withIndexRange_execCases (n := n.val) (if_neg (fun e => Bool.noConfusion (hd.symm.trans e))) ?_ ?_
        ⟨rfl, rfl, rfl, rfl, rfl⟩
      · rintro f h0 h rfl
        exact if_pos (by omega)
      · intro h
        exact if_neg (by omega)
    | true =>
      have hr := (drawRejected_iff _ _).1 hd
      exact .completes s (if_neg (by omega)) (if_pos hd) ⟨rfl, rfl, rfl, rfl, rfl⟩

end Sys2Proof.Machine
end

