-- ==== Sys2Proof/Tests/Slice0.lean ====
section
/-! SUPPORT. The model's own tests. The expected values come from the spec: the encodings of spec/30_encoding.md R73 and R84, the
font of 20_memory.md R55, and the vectors of 95_test_vectors.md, whose names (CF1, ALU3, …) each test cites. After them, for
every obligation that has hypotheses, a witness: a concrete state and operands that meet them, clause by clause. -/

namespace Sys2Proof.Tests

open Sys2Proof Sys2Proof.Machine Sys2Proof.Safety

/-! ### The tests' own helpers -/

/-- The reset state with a PRNG state the kernel can compare. -/
def base : State := { State.reset with prng := 0x10#8 }

/-- `base` with some registers set. -/
def regs (l : List (Fin 16 × Byte)) : State := l.foldl (fun s p => s.setV p.1 p.2) base

/-- `s` with bytes written from `a` on. -/
def bytesAt (a : Nat) (l : List Byte) (s : State) : State := s.setMem (s.mem.writeBytes a l)

/-- A question about the next state; false where there is none. -/
def onNextState (o : Result) (p : State → Bool) : Bool :=
  match o with
  | .next t => p t
  | .fault _ => false
  | .refused _ => false

/-- One STEP on the word `w` at PC, and a question about the state after it. -/
def ran (s : State) (w : Nat) (p : State → Bool) : Bool := onNextState (step (s.withFetchWord 16 w)) p

/-- One command of the host, and a question about the state after it. -/
def told (c : Command) (s : State) (p : State → Bool) : Bool := onNextState (step (s.setPending [c])) p

/-- The pixels lit, row by row, as one number a row whose most significant bit is column 0. -/
def rowBits (s : State) (r : Fin 32) : Nat := s.disp[r].toList.foldl (fun n b => 2 * n + b.toNat) 0

/-! ### Well-formed instructions (R76) -/

theorem test_wf_refuses_sys_0E0 : (Instr.sys 0x0E0).wellFormed = false := by decide
theorem test_wf_refuses_sys_0EE : (Instr.sys 0x0EE).wellFormed = false := by decide
theorem test_wf_accepts_sys_0E1 : (Instr.sys 0x0E1).wellFormed = true := by decide

/-! ### Decoding: every constructor, its word written out from the patterns of R84 (operands x = 1010, y = 0101) -/

theorem test_decode_family0 :
    [0b0000000011100000#16, 0b0000000011101110#16, 0b0000001100000001#16, 0b0000000000000000#16].map decode =
      [.instr .clear, .instr .ret, .instr (.sys 0x301), .instr (.sys 0x000)] := by decide

theorem test_decode_nnn :
    [0b0001001000110100#16, 0b0010001000110100#16, 0b1010001000110100#16, 0b1011001000110100#16].map decode =
      [.instr (.jump 0x234), .instr (.call 0x234), .instr (.loadIndex 0x234), .instr (.jumpOffset 0x234)] := by decide

theorem test_decode_xkk :
    [0b0011101001000010#16, 0b0100101001000010#16, 0b0110101001000010#16, 0b0111101001000010#16,
      0b1100101001000010#16].map decode =
      [.instr (.skipEqImm 10 0x42), .instr (.skipNeImm 10 0x42), .instr (.loadImm 10 0x42), .instr (.addImm 10 0x42),
        .instr (.random 10 0x42)] := by decide

theorem test_decode_xy0_and_draw :
    [0b0101101001010000#16, 0b1001101001010000#16, 0b1101101001010111#16].map decode =
      [.instr (.skipEqReg 10 5), .instr (.skipNeReg 10 5), .instr (.draw 10 5 7)] := by decide

theorem test_decode_family8 :
    [0b1000101001010000#16, 0b1000101001010001#16, 0b1000101001010010#16, 0b1000101001010011#16,
      0b1000101001010100#16, 0b1000101001010101#16, 0b1000101001010110#16, 0b1000101001010111#16,
      0b1000101001011110#16].map decode =
      [.instr (.copy 10 5), .instr (.orReg 10 5), .instr (.andReg 10 5), .instr (.xorReg 10 5), .instr (.addReg 10 5),
        .instr (.sub 10 5), .instr (.shr 10 5), .instr (.subn 10 5), .instr (.shl 10 5)] := by decide

theorem test_decode_familyE :
    [0b1110101010011110#16, 0b1110101010100001#16].map decode =
      [.instr (.skipKeyDown 10), .instr (.skipKeyUp 10)] := by decide

theorem test_decode_familyF :
    [0b1111101000000111#16, 0b1111101000001010#16, 0b1111101000010101#16, 0b1111101000011000#16,
      0b1111101000011110#16, 0b1111101000101001#16, 0b1111101000110011#16, 0b1111101001010101#16,
      0b1111101001100101#16].map decode =
      [.instr (.readDelay 10), .instr (.waitKey 10), .instr (.writeDelay 10), .instr (.writeSound 10),
        .instr (.addIndex 10), .instr (.fontAddr 10), .instr (.bcd 10), .instr (.storeRegs 10),
        .instr (.loadRegs 10)] := by decide

/-- DEC1 to DEC12. -/
theorem test_decode_nops :
    ([0xF090, 0xF100, 0xFFFF, 0xE1A2, 0xE19F, 0x8128, 0x812D, 0x812F, 0x5121, 0x912F, 0xF01F, 0xF0FF] : List Word).all
      (fun w => decode w == .nop) = true := by decide

theorem test_decode_bytes_rejects_by_name :
    decodeBytes [0x12] = .error (.tooFewBytes 1) ∧ decodeBytes [] = .error (.tooFewBytes 0) :=
  ⟨rfl, rfl⟩

theorem test_table_word : decodeTableWord 16 0x8AB4 = some (.addReg 10 11) ∧ decodeTableWord 16 0x8AB8 = none := by decide

/-- R73: the encoder's words, written out from the patterns of R84. -/
theorem test_encode :
    encode (.draw 10 5 7) = 0b1101101001010111#16 ∧ encode (.bcd 10) = 0b1111101000110011#16 ∧
      encodeBytes (.call 0x234) = [0x22#8, 0x34#8] := by decide

/-! ### Reset (S1) and the font (R55: glyph d at 5 d) -/

theorem test_reset_pc_sp : State.reset.PC = 0x200#16 ∧ State.reset.SP = 0#8 := by decide

theorem test_font_glyph_A : State.reset.mem.readBytes 0x32 5 = [0xF0#8, 0x90#8, 0xF0#8, 0x90#8, 0x90#8] := by decide

theorem test_font_ends : font.length = 80 ∧ State.reset.readByte 0x4F = 0x80#8 ∧ State.reset.readByte 0x50 = 0#8 := by decide

/-! ### Control flow -/

/-- CF1. -/
theorem test_ret : ran ((base.setSP 1#8).setStack 1 0x204#16) 0x00EE
    (fun t => t.PC == 0x204#16 && t.SP == 0#8 && t.stack[(1 : Fin 16)] == 0x204#16) = true := by decide

/-- CF2. -/
theorem test_ret_underflow : ran base 0x00EE
    (fun t => t.fault == some (.stackUnderflow 0x200#16) && t.PC == 0x200#16 && t.SP == 0#8) = true := by decide

/-- CF5, CF6. -/
theorem test_sys : ran base 0x0000 (fun t => t.PC == 0#16) = true ∧
    ran base 0x00E1 (fun t => t.PC == 0x0E1#16 && t.SP == 0#8) = true := by decide

/-- CF7. -/
theorem test_jump : ran base 0x1234 (fun t => t.PC == 0x234#16) = true := by decide

/-- CF12. -/
theorem test_call_pushes_post_advance : ran (base.setPC 0xFFE#16) 0x2FFE
    (fun t => t.PC == 0xFFE#16 && t.SP == 1#8 && t.stack[(1 : Fin 16)] == 0x1000#16) = true := by decide

/-- CF10, CF11. -/
theorem test_call_depth : ran (base.setSP 14#8) 0x2300
      (fun t => t.SP == 15#8 && t.stack[(15 : Fin 16)] == 0x202#16) = true ∧
    ran (base.setSP 15#8) 0x2300
      (fun t => t.fault == some (.stackOverflow 0x200#16) && t.PC == 0x200#16 && t.SP == 15#8) = true := by decide

/-- CF13, CF14. -/
theorem test_skip_eq_imm : ran (regs [(3, 0x42#8)]) 0x3342 (fun t => t.PC == 0x204#16) = true ∧
    ran (regs [(3, 0x41#8)]) 0x3342 (fun t => t.PC == 0x202#16) = true := by decide

/-- CF15, CF16. -/
theorem test_skip_ne_imm : ran (regs [(3, 0x42#8)]) 0x4342 (fun t => t.PC == 0x202#16) = true ∧
    ran (regs [(3, 0x41#8)]) 0x4342 (fun t => t.PC == 0x204#16) = true := by decide

/-- CF18, CF19. -/
theorem test_skip_eq_reg : ran (regs [(1, 7#8), (2, 7#8)]) 0x5120 (fun t => t.PC == 0x204#16) = true ∧
    ran (regs [(1, 7#8), (2, 8#8)]) 0x5120 (fun t => t.PC == 0x202#16) = true := by decide

/-- CF22, CF23. -/
theorem test_skip_ne_reg : ran (regs [(1, 7#8), (2, 8#8)]) 0x9120 (fun t => t.PC == 0x204#16) = true ∧
    ran (regs [(1, 7#8), (2, 7#8)]) 0x9120 (fun t => t.PC == 0x202#16) = true := by decide

/-- CF29. -/
theorem test_skip_past_memory : ran ((regs [(3, 0x42#8)]).setPC 0xFFE#16) 0x3342 (fun t => t.PC == 0x1002#16) = true := by
  decide

/-- CF27, CF28. -/
theorem test_jump_offset : ran (regs [(0, 0xFF#8)]) 0xBFFF (fun t => t.PC == 0x10FE#16) = true ∧
    ran (regs [(5, 0x20#8)]) 0xB500 (fun t => t.PC == 0x500#16) = true := by decide

/-- CF20. -/
theorem test_nop : ran (regs [(1, 7#8), (2, 7#8)]) 0x5121 (fun t => t.PC == 0x202#16 && t.fault == none) = true := by decide

/-! ### Registers and arithmetic -/

/-- ALU1. -/
theorem test_load_imm : ran base 0x6A2F (fun t => t.V[(10 : Fin 16)] == 0x2F#8 && t.PC == 0x202#16) = true := by decide

/-- ALU4. -/
theorem test_add_imm_wraps : ran (regs [(1, 0xFF#8), (15, 5#8)]) 0x7101
    (fun t => t.V[(1 : Fin 16)] == 0#8 && t.V[(15 : Fin 16)] == 5#8) = true := by decide

/-- ALU6. -/
theorem test_copy : ran (regs [(2, 9#8), (15, 5#8)]) 0x8120
    (fun t => t.V[(1 : Fin 16)] == 9#8 && t.V[(15 : Fin 16)] == 5#8) = true := by decide

/-- ALU12. -/
theorem test_or : ran (regs [(1, 0x10#8), (15, 1#8)]) 0x81F1
    (fun t => t.V[(1 : Fin 16)] == 0x11#8 && t.V[(15 : Fin 16)] == 0#8) = true := by decide

/-- ALU11: with x = F the flag remains. -/
theorem test_or_vf : ran (regs [(15, 0x0C#8), (2, 3#8)]) 0x8F21 (fun t => t.V[(15 : Fin 16)] == 0#8) = true := by decide

/-- ALU8. -/
theorem test_and : ran (regs [(1, 0x0C#8), (2, 6#8), (15, 1#8)]) 0x8122
    (fun t => t.V[(1 : Fin 16)] == 4#8 && t.V[(15 : Fin 16)] == 0#8) = true := by decide

/-- ALU9. -/
theorem test_xor : ran (regs [(1, 0x0C#8), (2, 6#8), (15, 1#8)]) 0x8123
    (fun t => t.V[(1 : Fin 16)] == 0x0A#8 && t.V[(15 : Fin 16)] == 0#8) = true := by decide

/-- ALU16. -/
theorem test_add_reg : ran (regs [(1, 0xFF#8), (2, 0xFF#8)]) 0x8124
    (fun t => t.V[(1 : Fin 16)] == 0xFE#8 && t.V[(15 : Fin 16)] == 1#8) = true := by decide

/-- ALU18: with x = F the sum remains. -/
theorem test_add_reg_vf : ran (regs [(15, 0xFF#8), (2, 5#8)]) 0x8F24 (fun t => t.V[(15 : Fin 16)] == 4#8) = true := by decide

/-- ALU20, ALU21. -/
theorem test_sub : ran (regs [(1, 3#8), (2, 5#8), (15, 5#8)]) 0x8125
      (fun t => t.V[(1 : Fin 16)] == 0xFE#8 && t.V[(15 : Fin 16)] == 0#8) = true ∧
    ran (regs [(1, 7#8), (2, 7#8), (15, 5#8)]) 0x8125
      (fun t => t.V[(1 : Fin 16)] == 0#8 && t.V[(15 : Fin 16)] == 0#8) = true := by decide

/-- ALU24, ALU26. -/
theorem test_shr_reads_vy : ran (regs [(2, 5#8)]) 0x8126
      (fun t => t.V[(1 : Fin 16)] == 2#8 && t.V[(15 : Fin 16)] == 1#8) = true ∧
    ran (regs [(1, 0xAA#8), (15, 5#8)]) 0x8126
      (fun t => t.V[(1 : Fin 16)] == 0#8 && t.V[(15 : Fin 16)] == 0#8) = true := by decide

/-- ALU29, ALU30. -/
theorem test_subn : ran (regs [(1, 1#8), (2, 5#8)]) 0x8127
      (fun t => t.V[(1 : Fin 16)] == 4#8 && t.V[(15 : Fin 16)] == 1#8) = true ∧
    ran (regs [(1, 5#8), (2, 1#8), (15, 5#8)]) 0x8127
      (fun t => t.V[(1 : Fin 16)] == 0xFC#8 && t.V[(15 : Fin 16)] == 0#8) = true := by decide

/-- ALU33, ALU34. -/
theorem test_shl : ran (regs [(2, 0x80#8)]) 0x812E
      (fun t => t.V[(1 : Fin 16)] == 0#8 && t.V[(15 : Fin 16)] == 1#8) = true ∧
    ran (regs [(2, 0xC1#8)]) 0x8F2E (fun t => t.V[(15 : Fin 16)] == 0x82#8) = true := by decide

/-- RND2, which holds for every PRNG_NEXT. -/
theorem test_random_under_zero_mask : ∃ t, step (base.withFetchWord 16 0xC300) = .next t ∧ t.PC = 0x202#16 ∧
    t.prng = Config.prngNext 0x10#8 ∧ t.V[(3 : Fin 16)] = 0#8 :=
  ⟨_, rfl, rfl, rfl, show Config.prngNext 0x10#8 &&& 0#8 = 0#8 by simp⟩

/-! ### Index and memory -/

/-- IDX1. -/
theorem test_load_index : ran base 0xA2F0 (fun t => t.I == 0x2F0#16) = true := by decide

/-- IDX2, IDX3. -/
theorem test_add_index : ran ((regs [(0, 0x10#8), (15, 5#8)]).setI 0xFFA#16) 0xF01E
      (fun t => t.I == 0x100A#16 && t.V[(15 : Fin 16)] == 5#8) = true ∧
    ran ((regs [(0, 1#8)]).setI 0xFFFF#16) 0xF01E (fun t => t.I == 0#16) = true := by decide

/-- IDX4, IDX6. -/
theorem test_font_addr : ran (regs [(4, 0x0A#8)]) 0xF429 (fun t => t.I == 0x32#16) = true ∧
    ran (regs [(4, 0xFF#8)]) 0xF429 (fun t => t.I == 0x4FB#16) = true := by decide

/-- IDX7. -/
theorem test_bcd : ran (bytesAt 0x300 [0xFF, 0xFF, 0xFF] ((regs [(5, 254#8)]).setI 0x300#16)) 0xF533
    (fun t => t.mem.readBytes 0x300 3 == [2#8, 5#8, 4#8] && t.I == 0x300#16) = true := by decide

/-- IDX10, IDX11. -/
theorem test_bcd_at_the_top : ran ((regs [(5, 255#8)]).setI 0xFFD#16) 0xF533
      (fun t => t.mem.readBytes 0xFFD 3 == [2#8, 5#8, 5#8]) = true ∧
    ran ((regs [(5, 255#8)]).setI 0xFFE#16) 0xF533
      (fun t => t.fault == some (.memoryBoundsError 0xFFE#16) && t.readByte 0xFFE == 0#8) = true := by decide

/-- IDX12. -/
theorem test_store_regs : ran ((regs [(0, 1#8), (1, 2#8), (2, 3#8), (3, 9#8)]).setI 0x400#16) 0xF255
    (fun t => t.mem.readBytes 0x400 4 == [1#8, 2#8, 3#8, 0#8] && t.I == 0x403#16) = true := by decide

/-- IDX15. -/
theorem test_store_regs_past_memory : ran ((regs [(1, 1#8)]).setI 0xFF1#16) 0xFF55
    (fun t => t.fault == some (.memoryBoundsError 0xFF1#16) && t.readByte 0xFF2 == 0#8) = true := by decide

/-- IDX16. -/
theorem test_load_regs : ran (bytesAt 0x400 [1, 2, 3, 4] (base.setI 0x400#16)) 0xF265
    (fun t => t.V[(0 : Fin 16)] == 1#8 && t.V[(2 : Fin 16)] == 3#8 && t.V[(3 : Fin 16)] == 0#8 && t.I == 0x403#16) = true := by
  decide

/-- IDX18. -/
theorem test_load_regs_past_memory : ran (base.setI 0x1000#16) 0xF065
    (fun t => t.fault == some (.memoryBoundsError 0x1000#16) && t.PC == 0x200#16) = true := by decide

/-! ### Display -/

/-- DSP1. -/
theorem test_clear : ran (base.setDisp (base.disp.set 31 (base.disp[31].set 63 true))) 0x00E0
    (fun t => rowBits t 31 == 0) = true := by decide

/-- DSP5: clipped at the right and at the bottom. -/
theorem test_draw_clips : ran (bytesAt 0x300 [0xC0, 0xC0] ((regs [(1, 63#8), (2, 31#8)]).setI 0x300#16)) 0xD122
    (fun t => rowBits t 31 == 1 && rowBits t 0 == 0 && t.V[(15 : Fin 16)] == 0#8) = true := by decide

/-- DSP17. -/
theorem test_draw_collides : ran (bytesAt 0x300 [0xFF] ((regs [(1, 0x3C#8)]).setI 0x300#16)) 0xD121
      (fun t => rowBits t 0 == 15 &&
        ran (t.setPC 0x200#16) 0xD121 (fun u => rowBits u 0 == 0 && u.V[(15 : Fin 16)] == 1#8)) = true := by decide

/-! ### Keypad and timers -/

/-- KEY5, KEY6. -/
theorem test_skip_key_down : ran (((regs [(2, 5#8)]).setKeys 5 true).setPrevKeys (base.keys.set 5 true)) 0xE29E
      (fun t => t.PC == 0x204#16) = true ∧
    ran (regs [(2, 16#8)]) 0xE29E (fun t => t.fault == some (.keyIndexError 16#8) && t.PC == 0x200#16) = true := by decide

/-- KEY3, KEY4. -/
theorem test_skip_key_up : ran ((regs [(2, 5#8)]).setKeys 5 true) 0xE2A1 (fun t => t.PC == 0x202#16) = true ∧
    ran (regs [(2, 5#8)]) 0xE2A1 (fun t => t.PC == 0x204#16) = true := by decide

/-- KEY8. -/
theorem test_read_delay : ran (base.setDT 0x3C#8) 0xF307 (fun t => t.V[(3 : Fin 16)] == 0x3C#8) = true := by decide

/-- KEY11, KEY12. -/
theorem test_wait_key : ran ((base.setKeys 3 true).setKeys 9 true) 0xF40A
      (fun t => t.V[(4 : Fin 16)] == 3#8 && t.PC == 0x202#16) = true ∧
    ran (((base.setKeys 3 true).setKeys 9 true).setPrevKeys (base.keys.set 3 true)) 0xF40A
      (fun t => t.V[(4 : Fin 16)] == 9#8) = true := by decide

/-- KEY10, KEY14. -/
theorem test_wait_key_spins : ran base 0xF40A (fun t => t.PC == 0x200#16) = true ∧
    ran (base.setPrevKeys (base.keys.set 6 true)) 0xF40A (fun t => t.PC == 0x200#16 && t.fault == none) = true := by decide

/-- KEY16. -/
theorem test_write_delay : ran (regs [(1, 60#8)]) 0xF115 (fun t => t.DT == 60#8 && t.ST == 0#8) = true := by decide

/-- KEY18. -/
theorem test_write_sound : ran (regs [(1, 2#8)]) 0xF118 (fun t => t.ST == 2#8 && t.DT == 0#8) = true := by decide

/-! ### The step and the host's commands -/

/-- FLT1. -/
theorem test_fetch_out_of_range : onNextState (step (base.setPC 0xFFF#16))
    (fun t => t.fault == some (.decodeError 0xFFF#16) && t.PC == 0xFFF#16) = true := by decide

/-- H1. -/
theorem test_halted_step_answers_the_fault :
    respond .step (base.setFault (some (.stackOverflow 0x200#16))) = .err (.stackOverflow 0x200#16) := by decide

/-- T1, T2. -/
theorem test_tick : told .tick (((base.setDT 2#8).setKeys 4 true))
      (fun t => t.DT == 1#8 && t.ST == 0#8 && t.prevKeys[(4 : Fin 16)]) = true ∧
    told .tick (base.setST 1#8) (fun t => t.DT == 0#8 && !soundOutput t) = true := by decide

/-- T4. -/
theorem test_set_key : told (.setKey 3 true) base (fun t => t.keys[(3 : Fin 16)] && !t.prevKeys[(3 : Fin 16)]) = true := by
  decide

/-- L3, from a halted state. -/
theorem test_load : told (.load [0x12, 0x00]) (((regs [(3, 9#8)]).setPC 0x300#16).setFault (some (.decodeError 0x1000#16)))
    (fun t => t.mem.readBytes 0x200 3 == [0x12#8, 0#8, 0#8] && t.PC == 0x200#16 && t.fault == none &&
      t.V[(3 : Fin 16)] == 0#8) = true := by decide

/-- L2. -/
theorem test_load_too_large : imageTooLarge (List.replicate 3585 0#8) = true ∧
    imageTooLarge (List.replicate 3584 0#8) = false := by
  simp only [imageTooLarge, maxProgram, List.length_replicate]
  decide

/-- L5, R242: the draw is the next one. -/
theorem test_reset_command : ∃ t, step ((regs [(3, 9#8)]).setPending [.reset]) = .next t ∧ t.V[(3 : Fin 16)] = 0#8 ∧
    t.prng = Config.prngSeed 1 := ⟨_, rfl, rfl, rfl⟩

/-! ### Witnesses: for each obligation that has hypotheses, a state and operands that meet them -/

/-- The block about to run the word `w` at PC. -/
def about (s : State) (w : Nat) : State := s.withFetchWord 16 w

/-- `base` with a fault recorded. -/
def halted : State := base.setFault (some (.stackOverflow 0x200#16))

theorem witness_EncodedInstructionDecodesToItself :
    (Instr.sys 0xFFF).wellFormed = true ∧ (Instr.draw 15 15 15).wellFormed = true := by decide

theorem witness_DecodedWordIsItsEncoding : decode 0x0FFF#16 = .instr (.sys 0xFFF) := by decide

theorem witness_DecodeIsFirstMatchingRowOfOpcodeMap :
    ∃ r₁ ∈ opcodeTable, ∃ r₂ ∈ opcodeTable, r₁.matchesWord 0x00E0#16 = true ∧ r₂.matchesWord 0x00E0#16 = true ∧ r₁ ≠ r₂ :=
  ⟨⟨"clear", 0xFFFF, 0x00E0⟩, by decide, ⟨"sys", 0xF000, 0x0000⟩, by decide, by decide, by decide, by decide⟩

/-- At the last legal PC, with no command pending and with STEP pending. -/
theorem witness_StepRunsDecodedInstruction :
    (about (base.setPC 0xFFE#16) 0x2FFE).fault = none ∧ (about (base.setPC 0xFFE#16) 0x2FFE).PC = 0xFFE#16 ∧
    decode (fetchWord (about (base.setPC 0xFFE#16) 0x2FFE)) = .instr (.call 0xFFE) ∧
    (about (base.setPC 0xFFE#16) 0x2FFE).pending = [] ∧
    ∃ t, exec (.call 0xFFE) { (about (base.setPC 0xFFE#16) 0x2FFE).setPending [.step] with
      PC := 0x1000#16, pending := [] } = .next t :=
  ⟨rfl, rfl, by decide, rfl, _, rfl⟩

theorem witness_NopStepOnlyAdvancesPc :
    (about (base.setPC 0xFFE#16) 0x812F).fault = none ∧ (about (base.setPC 0xFFE#16) 0x812F).PC = 0xFFE#16 ∧
    decode (fetchWord (about (base.setPC 0xFFE#16) 0x812F)) = .nop ∧
    (about (base.setPC 0xFFE#16) 0x812F).pending = [] ∧
    ((about (base.setPC 0xFFE#16) 0x812F).setPending [.step]).pending = .step :: [] :=
  ⟨rfl, rfl, by decide, rfl, rfl⟩

theorem witness_StepOutOfFetchRangeRaisesDecodeError :
    (base.setPC 0xFFF#16).fault = none ∧ 0xFFE < (base.setPC 0xFFF#16).PC.toNat ∧ (base.setPC 0xFFF#16).pending = [] ∧
    ((base.setPC 0xFFF#16).setPending [.step]).pending = .step :: [] := by decide

theorem witness_HaltedStepChangesNothing :
    halted.fault = some (.stackOverflow 0x200#16) ∧ (halted.setPending [.step, .tick]).pending = .step :: [.tick] := by decide

theorem witness_HaltedRunStopsWithRecordedFault :
    halted.fault = some (.stackOverflow 0x200#16) ∧ halted.pending = [] := by decide

/-- A step that faults and one that does not. -/
theorem witness_FaultingStepIsPrecise :
    (∃ t, (about base 0x00EE).fault = none ∧ (about base 0x00EE).pending = [] ∧ step (about base 0x00EE) = .next t ∧
      t.fault = some (.stackUnderflow 0x200#16)) ∧
    ∃ t, (about base 0x6001).fault = none ∧ (about base 0x6001).pending = [] ∧ step (about base 0x6001) = .next t ∧
      t.fault = none :=
  ⟨⟨_, rfl, rfl, rfl, rfl⟩, ⟨_, rfl, rfl, rfl, rfl⟩⟩

/-- Each fault an instruction raises, and the last state in which it raises none. -/
theorem witness_FaultsAreExactlyTheTable :
    faultOf (.call 0x300) (base.setSP 15#8) ≠ none ∧ faultOf (.call 0x300) (base.setSP 14#8) = none ∧
    faultOf .ret base ≠ none ∧ faultOf .ret (base.setSP 1#8) = none ∧
    faultOf (.draw 1 2 1) (base.setI 0x1000#16) ≠ none ∧ faultOf (.draw 1 2 1) (base.setI 0xFFF#16) = none ∧
    faultOf (.bcd 1) (base.setI 0xFFE#16) ≠ none ∧ faultOf (.bcd 1) (base.setI 0xFFD#16) = none ∧
    faultOf (.storeRegs 15) (base.setI 0xFF1#16) ≠ none ∧ faultOf (.loadRegs 15) (base.setI 0xFF0#16) = none ∧
    faultOf (.skipKeyDown 2) (regs [(2, 16#8)]) ≠ none ∧ faultOf (.skipKeyUp 2) (regs [(2, 15#8)]) = none := by decide

/-- A block that runs, a halted one with a command left, and a halted one with none: SP legal in each. -/
theorem witness_StepNeverRefusesWithLegalSp : (base.setSP 15#8).SP.toNat ≤ 15 ∧
    (halted.SP.toNat ≤ 15 ∧ halted.fault = some (.stackOverflow 0x200#16) ∧ halted.pending = []) ∧
    (halted.setPending [.step]).SP.toNat ≤ 15 := by decide

/-- A legal state with a return address on the stack, about to return. -/
theorem witness_StepKeepsLegal : ∃ t,
    Legal (about ((base.setSP 1#8).setStack 1 0x1000#16) 0x00EE) ∧
      step (about ((base.setSP 1#8).setStack 1 0x1000#16) 0x00EE) = .next t :=
  ⟨_, ⟨by decide, by decide, by decide, by decide, by decide⟩, rfl⟩

/-- A step that records a fault, and a step of a block that has one recorded. -/
theorem witness_StepKeepsFaultTruthful :
    (∃ t, faultTruthful (about (base.setI 0xFFE#16) 0xF133) ∧ step (about (base.setI 0xFFE#16) 0xF133) = .next t ∧
      t.fault = some (.memoryBoundsError 0xFFE#16)) ∧
    ∃ t, faultTruthful ((halted.setSP 15#8).setPending [.step, .tick]) ∧
      step ((halted.setSP 15#8).setPending [.step, .tick]) = .next t :=
  ⟨⟨_, trivial, rfl, rfl⟩, ⟨_, ⟨rfl, rfl⟩, rfl⟩⟩

theorem witness_ReachableStatesStayInBounds : ∃ t, Reachable t ∧ t.keys[(3 : Fin 16)] = true :=
  ⟨_, .step (.reset [.setKey 3 true]) rfl, rfl⟩

/-- A fault set by a STEP, and a recorded fault before a step. -/
theorem witness_FaultSetByStepClearedByResetOrLoad :
    (∃ t, step (about base 0x00EE) = .next t ∧ (about base 0x00EE).fault = none ∧ t.fault ≠ none) ∧
    (∃ t, step (halted.setPending [.tick]) = .next t ∧ (halted.setPending [.tick]).fault = some (.stackOverflow 0x200#16)) ∧
    ∃ t, step (halted.setPending [.reset]) = .next t ∧ t.fault = none :=
  ⟨⟨_, rfl, rfl, by decide⟩, ⟨_, rfl, rfl⟩, ⟨_, rfl, rfl⟩⟩

theorem witness_KeysAndSnapshotChangeOnlyByHost : ∃ t, step (base.setPending [.setKey 15 true]) = .next t ∧ t.keys ≠ base.keys :=
  ⟨_, rfl, by decide⟩

/-- The conditions of every clause but that on PC, all met by one jump; those of the clause on PC, met by a transfer that
ends at the last byte of memory. -/
theorem witness_EachComponentHasItsWriters : ∃ t, exec (.jump 0x300) base = .next t ∧
    (∀ r, ¬ mayWriteReg (.jump 0x300) r) ∧ faultOf (.jump 0x300) base = none ∧
    (∀ x, Instr.jump 0x300 ≠ .bcd x) ∧ (∀ x, Instr.jump 0x300 ≠ .storeRegs x) ∧ Instr.jump 0x300 ≠ .clear ∧
    (∀ x y n, Instr.jump 0x300 ≠ .draw x y n) ∧ (∀ a, Instr.jump 0x300 ≠ .call a) ∧ Instr.jump 0x300 ≠ .ret ∧
    (∀ x, Instr.jump 0x300 ≠ .writeDelay x) ∧ (∀ x, Instr.jump 0x300 ≠ .writeSound x) ∧
    (∀ x kk, Instr.jump 0x300 ≠ .random x kk) ∧ (∀ a, Instr.jump 0x300 ≠ .loadIndex a) ∧
    (∀ x, Instr.jump 0x300 ≠ .addIndex x) ∧ (∀ x, Instr.jump 0x300 ≠ .fontAddr x) ∧
    (∀ x, Instr.jump 0x300 ≠ .loadRegs x) := by
  refine ⟨_, rfl, fun _ h => h, rfl, ?_⟩
  simp

theorem witness_EachComponentHasItsWriters_pc : ∃ t, exec (.loadRegs 15) (base.setI 0xFF0#16) = .next t ∧
    ¬ mayWritePc (.loadRegs 15) ∧ faultOf (.loadRegs 15) (base.setI 0xFF0#16) = none :=
  ⟨_, rfl, id, by decide⟩

theorem witness_FlagRegisterHasItsWriters : ∃ t, exec (.addReg 1 2) (regs [(1, 0xFF#8), (2, 1#8)]) = .next t ∧
    t.V[(15 : Fin 16)] ≠ (regs [(1, 0xFF#8), (2, 1#8)]).V[(15 : Fin 16)] :=
  ⟨_, rfl, by decide⟩

theorem witness_PrngAndSnapshotAreSeenByOneInstruction :
    (∀ x kk, Instr.waitKey 1 ≠ .random x kk) ∧ ∀ x, Instr.random 1 0xFF ≠ .waitKey x := by simp

/-- The empty stack, and the first and the last slot. -/
theorem witness_ReturnPopsTheTopSlot : base.SP.toNat = 0 ∧
    ((1 : Fin 16).val = (base.setSP 1#8).SP.toNat ∧ (1 : Fin 16) ≠ 0) ∧
    ((15 : Fin 16).val = (base.setSP 15#8).SP.toNat ∧ (15 : Fin 16) ≠ 0) := by decide

theorem witness_CallPushesThePostAdvancePc : (base.setSP 15#8).SP.toNat = 15 ∧ (base.setSP 14#8).SP.toNat < 15 := by decide

/-- S3 at the deepest call: a return stands at the target. -/
theorem witness_CallThenReturnComesBack : ∃ t,
    Runs (about (bytesAt 0x300 [0x00, 0xEE] (base.setSP 14#8)) 0x2300) (.call 0x300) ∧
      (about (bytesAt 0x300 [0x00, 0xEE] (base.setSP 14#8)) 0x2300).SP.toNat ≤ 14 ∧
      step (about (bytesAt 0x300 [0x00, 0xEE] (base.setSP 14#8)) 0x2300) = .next t ∧ Runs t .ret :=
  ⟨_, ⟨rfl, by decide, by decide, rfl⟩, by decide, rfl, ⟨rfl, by decide, by decide, rfl⟩⟩

/-- Both outcomes of each comparison. -/
theorem witness_SkipsAddTwoWhenTheConditionHolds :
    (regs [(3, 0x42#8)]).V[(3 : Fin 16)].toNat = (0x42#8).toNat ∧
    (regs [(3, 0x41#8)]).V[(3 : Fin 16)].toNat ≠ (0x42#8).toNat ∧
    (regs [(1, 7#8), (2, 7#8)]).V[(1 : Fin 16)].toNat = (regs [(1, 7#8), (2, 7#8)]).V[(2 : Fin 16)].toNat ∧
    (regs [(1, 7#8), (2, 8#8)]).V[(1 : Fin 16)].toNat ≠ (regs [(1, 7#8), (2, 8#8)]).V[(2 : Fin 16)].toNat := by decide

/-- For the arithmetic statements: a destination that is not VF, its last bit, and a register that is neither. -/
theorem witness_BitwiseOperationsResetVf : (14 : Fin 16) ≠ 15 ∧ 7 < 8 ∧ (0 : Fin 16) ≠ 14 ∧ (0 : Fin 16) ≠ 15 := by decide

theorem witness_AddRegGivesSumAndCarry : (14 : Fin 16) ≠ 15 ∧ (0 : Fin 16) ≠ 14 ∧ (0 : Fin 16) ≠ 15 := by decide

theorem witness_SubtractionsFlagAStrictlyGreaterMinuend : (14 : Fin 16) ≠ 15 ∧ (0 : Fin 16) ≠ 14 ∧ (0 : Fin 16) ≠ 15 := by
  decide

theorem witness_ShiftsReadVyAndFlagTheDroppedBit : (14 : Fin 16) ≠ 15 ∧ (0 : Fin 16) ≠ 14 ∧ (0 : Fin 16) ≠ 15 := by decide

theorem witness_RandomMasksTheNewPrngState : 7 < 8 ∧ (0 : Fin 16) ≠ 15 := by decide

theorem witness_LoadsAndImmediateAddWriteOnlyVx : (0 : Fin 16) ≠ 15 := by decide

/-- The last legal index of each transfer and the first illegal one. -/
theorem witness_BcdStoresThreeDigits :
    (base.setI 0xFFD#16).I.toNat + 2 ≤ 0xFFF ∧ 0xFFF < (base.setI 0xFFE#16).I.toNat + 2 := by decide

theorem witness_StoreRegsCopiesV0ToVx :
    (base.setI 0xFF0#16).I.toNat + (15 : Fin 16).val ≤ 0xFFF ∧ 0xFFF < (base.setI 0xFF1#16).I.toNat + (15 : Fin 16).val := by
  decide

theorem witness_LoadRegsFillsV0ToVx :
    (base.setI 0xFFF#16).I.toNat + (0 : Fin 16).val ≤ 0xFFF ∧ 0xFFF < (base.setI 0x1000#16).I.toNat + (0 : Fin 16).val := by
  decide

theorem witness_StoreThenLoadRestoresRegisters : ∃ t, (base.setI 0xFF0#16).I.toNat + (15 : Fin 16).val ≤ 0xFFF ∧
    exec (.storeRegs 15) (base.setI 0xFF0#16) = .next t :=
  ⟨_, by decide, rfl⟩

theorem witness_CanonicalMemoriesThatReadAlikeAreEqual :
    Memory.wf [(0xFFF, 1#8)] = true ∧ ∀ a < 4096, Memory.read [(0xFFF, 1#8)] a = Memory.read [(0xFFF, 1#8)] a :=
  ⟨by decide, fun _ _ => rfl⟩

/-- `Fx55` at 0x200 with I = 0x202 and the word 0x6A42 in V0 and V1. -/
theorem witness_StoredWordIsFetchedNext :
    Runs (about ((regs [(0, 0x6A#8), (1, 0x42#8)]).setI 0x202#16) 0xF155) (.storeRegs 1) ∧
    decode (wordOfBytes (regs [(0, 0x6A#8), (1, 0x42#8)]).V[(0 : Fin 16)] (regs [(0, 0x6A#8), (1, 0x42#8)]).V[(1 : Fin 16)]) =
      .instr (.loadImm 10 0x42) ∧
    (about ((regs [(0, 0x6A#8), (1, 0x42#8)]).setI 0x202#16) 0xF155).I = 0x202#16 ∧ 0x200 + 2 + 1 ≤ 0xFFF :=
  ⟨⟨rfl, by decide, by decide, rfl⟩, by decide, rfl, by decide⟩

/-- Each limit passed by one, the other coordinate legal. -/
theorem witness_RejectedDrawChangesNothing :
    63 < (regs [(1, 64#8)]).V[(1 : Fin 16)].toNat ∧ 32 < (regs [(2, 33#8)]).V[(2 : Fin 16)].toNat := by decide

/-- The largest coordinates with the last byte of memory, and no row with I past memory. -/
theorem witness_DrawXorsTheClippedSprite :
    ((regs [(1, 63#8), (2, 32#8)]).setI 0xFFF#16).V[(1 : Fin 16)].toNat ≤ 63 ∧
    ((regs [(1, 63#8), (2, 32#8)]).setI 0xFFF#16).V[(2 : Fin 16)].toNat ≤ 32 ∧
    ((1 : Fin 16).val = 0 ∨ ((regs [(1, 63#8), (2, 32#8)]).setI 0xFFF#16).I.toNat + ((1 : Fin 16).val - 1) ≤ 0xFFF) ∧
    ((0 : Fin 16).val = 0 ∨ (base.setI 0xFFFF#16).I.toNat + ((0 : Fin 16).val - 1) ≤ 0xFFF) := by decide

/-- A sprite bit on a lit pixel (VF becomes 1), and a blank framebuffer (VF becomes 0). -/
theorem witness_DrawXorsTheClippedSprite_collision :
    (∃ (r : Fin 32) (c : Fin 64), (base.setDisp (base.disp.set 0 (base.disp[0].set 63 true))).disp[r][c] = true ∧
      spritePixel (fun k => base.readByte (indexAddress base k)) 1 0 60 r c = true) ∧
    ∀ (r : Fin 32) (c : Fin 64), base.disp[r][c] = true →
      spritePixel (fun k => base.readByte (indexAddress base k)) 1 0 60 r c = false :=
  ⟨⟨0, 63, by decide, by decide⟩, fun r c h => by simp [base, State.reset] at h⟩

/-- The first illegal range, on a row that clipping would not draw (DSP16). -/
theorem witness_DrawPastMemoryFaultsBeforeDrawing :
    ((regs [(1, 63#8), (2, 31#8)]).setI 0xFFF#16).V[(1 : Fin 16)].toNat ≤ 63 ∧
    ((regs [(1, 63#8), (2, 31#8)]).setI 0xFFF#16).V[(2 : Fin 16)].toNat ≤ 32 ∧ 0 < (2 : Fin 16).val ∧
    0xFFF < ((regs [(1, 63#8), (2, 31#8)]).setI 0xFFF#16).I.toNat + ((2 : Fin 16).val - 1) := by decide

theorem witness_DrawingTwiceRestoresTheDisplay : ∃ t, base.fault = none ∧ exec (.draw 1 2 5) base = .next t ∧ t.fault = none :=
  ⟨_, rfl, rfl, rfl⟩

theorem witness_KeySkipsTestTheHeldKey :
    (15 : Fin 16).val = (regs [(2, 15#8)]).V[(2 : Fin 16)].toNat ∧ (0 : Fin 16).val = (regs [(2, 0#8)]).V[(2 : Fin 16)].toNat ∧
    15 < (regs [(2, 16#8)]).V[(2 : Fin 16)].toNat := by decide

/-- KEY11's edges, and KEY13's held key with no edge. -/
theorem witness_WaitKeyTakesTheLowestRisingEdgeOrGoesBack :
    (((base.setKeys 3 true).setKeys 9 true).keys[(3 : Fin 16)] = true ∧
      ((base.setKeys 3 true).setKeys 9 true).prevKeys[(3 : Fin 16)] = false ∧
      ∀ j : Fin 16, j < 3 → ¬ (((base.setKeys 3 true).setKeys 9 true).keys[j] = true ∧
        ((base.setKeys 3 true).setKeys 9 true).prevKeys[j] = false)) ∧
    ∀ k : Fin 16, ((base.setKeys 3 true).setPrevKeys (base.keys.set 3 true)).keys[k] = true →
      ((base.setKeys 3 true).setPrevKeys (base.keys.set 3 true)).prevKeys[k] = true := by decide

theorem witness_WaitKeySpinsWithoutAnEdge :
    Runs (about base 0xF40A) (.waitKey 4) ∧
      ∀ k : Fin 16, (about base 0xF40A).keys[k] = true → (about base 0xF40A).prevKeys[k] = true :=
  ⟨⟨rfl, by decide, by decide, rfl⟩, by decide⟩

/-- No command pending, STEP pending (a step that faults), and another command pending while halted. -/
theorem witness_CommandsRunInOrderAndAreUsedUp : (about base 0x6001).pending = [] ∧
    ((about base 0x6001).setPending [.step, .tick]).pending = .step :: [.tick] ∧
    (∃ t, step ((about base 0x00EE).setPending [.step, .tick]) = .next t) ∧
    ∃ t, step (halted.setPending [.tick]) = .next t :=
  ⟨rfl, rfl, ⟨_, rfl⟩, ⟨_, rfl⟩⟩

theorem witness_SetKeyWritesOneKey : (halted.setPending [.setKey 15 true]).pending = .setKey 15 true :: [] := by decide

theorem witness_ResetSetsEveryComponent : (halted.setPending [.reset, .step]).pending = .reset :: [.step] := by decide

/-- The longest image that loads and the shortest that does not. -/
theorem witness_LoadCopiesTheImageAfterReset :
    (base.setPending [.load (List.replicate 3584 0#8)]).pending = .load (List.replicate 3584 0#8) :: [] ∧
    (List.replicate 3584 0#8).length ≤ 3584 ∧
    (base.setPending [.load (List.replicate 3585 0#8)]).pending = .load (List.replicate 3585 0#8) :: [] ∧
    3584 < (List.replicate 3585 0#8).length := by
  simp only [List.length_replicate]
  exact ⟨rfl, le_refl _, rfl, by decide⟩

/-- Both sides of the sound output. -/
theorem witness_QueriesAnswerAndChangeNothing : 0 < (base.setST 1#8).ST.toNat ∧ base.ST.toNat = 0 := by decide

end Sys2Proof.Tests
end

section
/-! Memory through the state: what a read gives after a byte is written, and that nothing but memory changes
(spec/20_memory.md R51, R52). -/

namespace Sys2Proof.Machine

/-- R52: a byte write replaces memory and keeps every other component. -/
theorem State.writeByte_frame (s : State) (a : Nat) (v : Byte) :
    s.writeByte a v = { s with mem := s.mem.write a v } := rfl

@[simp] theorem State.writeByte_mem (s : State) (a : Nat) (v : Byte) :
    (s.writeByte a v).mem = s.mem.write a v := rfl

/-- R51 after R52: the law `Memory.read_write` for the state's own accessors. -/
theorem State.readByte_writeByte (s : State) (a b : Nat) (v : Byte) :
    (s.writeByte a v).readByte b = if b = a then v else s.readByte b :=
  s.mem.read_write a b v

/-- Settles O41, by the read-after-write law of memory and the frame of a byte write. -/
theorem byteWrittenIsReadBack : Obligations.ByteWrittenIsReadBack := by
  intro s a b v
  constructor
  · exact s.readByte_writeByte a b v
  · rw [State.writeByte_mem]
    exact s.writeByte_frame a v

end Sys2Proof.Machine
end

section
/-! Control flow: what the plain transfers and the four compare-and-skip instructions come to, each said once through the
state's own accessors (spec/40_control_flow.md R101, R103 to R107), and the statements about them. -/

namespace Sys2Proof.Machine

/-! ### Plain transfers -/

/-- R72: the 12-bit address is zero-extended, so no bit of it is lost. -/
theorem addressOperand_toNat (nnn : BitVec 12) : (addressOperand nnn).toNat = nnn.toNat :=
  BitVec.toNat_setWidth_of_le (by decide)

theorem exec_sys (nnn : BitVec 12) (s : State) : exec (.sys nnn) s = .next (s.setPC (addressOperand nnn)) := rfl

theorem exec_jump (nnn : BitVec 12) (s : State) : exec (.jump nnn) s = .next (s.setPC (addressOperand nnn)) := rfl

/-- Settles O26: both instructions are one write of PC, by the zero-extended operand. -/
theorem sysAndJumpSetPc : Obligations.SysAndJumpSetPc := by
  intro s nnn
  exact ⟨addressOperand nnn, addressOperand_toNat nnn, exec_sys nnn s, exec_jump nnn s⟩

/-! ### Compare and skip -/

theorem exec_skipEqImm (x : Fin 16) (kk : Byte) (s : State) :
    exec (.skipEqImm x kk) s = .next (skipIf (s.V[x] == kk) s) := rfl

theorem exec_skipNeImm (x : Fin 16) (kk : Byte) (s : State) :
    exec (.skipNeImm x kk) s = .next (skipIf (s.V[x] != kk) s) := rfl

theorem exec_skipEqReg (x y : Fin 16) (s : State) :
    exec (.skipEqReg x y) s = .next (skipIf (s.V[x] == s.V[y]) s) := rfl

theorem exec_skipNeReg (x y : Fin 16) (s : State) :
    exec (.skipNeReg x y) s = .next (skipIf (s.V[x] != s.V[y]) s) := rfl

/-- On equal bytes the skip on equality is taken and the skip on difference is not. -/
theorem skipIf_of_toNat_eq {a b : Byte} (h : a.toNat = b.toNat) (s : State) :
    skipIf (a == b) s = { s with PC := s.PC + 2#16 } ∧ skipIf (a != b) s = s := by
  have hab : a = b := BitVec.eq_of_toNat_eq h
  exact ⟨skipIf_of_true (beq_iff_eq.2 hab) s, skipIf_of_false (bne_eq_false_iff_eq.2 hab) s⟩

/-- On different bytes it is the other way round. -/
theorem skipIf_of_toNat_ne {a b : Byte} (h : a.toNat ≠ b.toNat) (s : State) :
    skipIf (a == b) s = s ∧ skipIf (a != b) s = { s with PC := s.PC + 2#16 } := by
  have hab : a ≠ b := BitVec.toNat_ne_iff_ne.1 h
  exact ⟨skipIf_of_false (beq_false_of_ne hab) s, skipIf_of_true (bne_iff_ne.2 hab) s⟩

/-- Settles O28: each instruction is a `skipIf` on a comparison of two bytes, which are equal or different. -/
theorem skipsAddTwoWhenTheConditionHolds : Obligations.SkipsAddTwoWhenTheConditionHolds := by
  intro s x y kk
  simp only [exec_skipEqImm, exec_skipNeImm, exec_skipEqReg, exec_skipNeReg, Host.Outcome.next.injEq]
  exact ⟨(skipIf_of_toNat_eq · s), (skipIf_of_toNat_ne · s), (skipIf_of_toNat_eq · s), (skipIf_of_toNat_ne · s)⟩

end Sys2Proof.Machine
end

section
/-! Register loads: load-imm, add-imm and copy are each one write of Vx, said once through the state's own accessors
(spec/41_registers_alu.md R120, R121, R125), and the statement about them. -/

namespace Sys2Proof.Machine

theorem exec_loadImm (x : Fin 16) (kk : Byte) (s : State) : exec (.loadImm x kk) s = .next (s.setV x kk) := rfl

theorem exec_addImm (x : Fin 16) (kk : Byte) (s : State) : exec (.addImm x kk) s = .next (s.setV x (s.V[x] + kk)) := rfl

theorem exec_copy (x y : Fin 16) (s : State) : exec (.copy x y) s = .next (s.setV x s.V[y]) := rfl

/-- Settles O29: each instruction is one register write, so what a register reads afterwards is `State.setV_get`. -/
theorem loadsAndImmediateAddWriteOnlyVx : Obligations.LoadsAndImmediateAddWriteOnlyVx := by
  intro s x y kk
  refine ⟨⟨(s.setV x kk).V, exec_loadImm x kk s, fun r => s.setV_get x r kk⟩,
    ⟨(s.setV x (s.V[x] + kk)).V, exec_addImm x kk s, ?sum, ?others⟩,
    ⟨(s.setV x s.V[y]).V, exec_copy x y s, fun r => s.setV_get x r s.V[y]⟩⟩
  case sum =>
    rw [State.setV_get, if_pos rfl]
    exact BitVec.toNat_add s.V[x] kk
  case others =>
    intro r hr
    rw [State.setV_get, if_neg hr]

end Sys2Proof.Machine
end

section
/-! The index register: load-index and font-addr are each one write of I (spec/42_index_memory.md R150, R154), and the
statement about them. -/

namespace Sys2Proof.Machine

theorem wordOfByte_toNat (b : Byte) : (wordOfByte b).toNat = b.toNat :=
  BitVec.toNat_setWidth_of_le (by decide)

/-- Five times a byte is at most 1275, so the 16-bit product does not wrap. -/
theorem wordOfByte_mul_five_toNat (b : Byte) : (wordOfByte b * 5#16).toNat = b.toNat * 5 := by
  have hb : b.toNat < 256 := b.isLt
  calc (wordOfByte b * 5#16).toNat
      = (wordOfByte b).toNat * 5 % 65536 := BitVec.toNat_mul (wordOfByte b) 5#16
    _ = b.toNat * 5 % 65536 := by rw [wordOfByte_toNat]
    _ = b.toNat * 5 := Nat.mod_eq_of_lt (by omega)

theorem exec_loadIndex (nnn : BitVec 12) (s : State) :
    exec (.loadIndex nnn) s = .next (s.setI (addressOperand nnn)) := rfl

theorem exec_fontAddr (x : Fin 16) (s : State) :
    exec (.fontAddr x) s = .next (s.setI (wordOfByte s.V[x] * 5#16)) := rfl

/-- Settles O35: each instruction is one write of I, by the zero-extended operand and by a product that does not wrap. -/
theorem loadIndexAndFontAddrWriteOnlyI : Obligations.LoadIndexAndFontAddrWriteOnlyI := by
  intro s x nnn
  exact ⟨addressOperand nnn, wordOfByte s.V[x] * 5#16, exec_loadIndex nnn s, addressOperand_toNat nnn,
    exec_fontAddr x s, wordOfByte_mul_five_toNat s.V[x]⟩

end Sys2Proof.Machine
end

section
/-! The display: clear is one write of the framebuffer, by the blank one (spec/43_display.md R170), and the statement about
it. -/

namespace Sys2Proof.Machine

theorem blankDisplay_get (r : Fin 32) (c : Fin 64) : blankDisplay[r][c] = false := by
  have hrow : blankDisplay[r] = Vector.replicate 64 false := Vector.getElem_replicate r.isLt
  rw [hrow]
  exact Vector.getElem_replicate c.isLt

theorem exec_clear (s : State) : exec .clear s = .next (s.setDisp blankDisplay) := rfl

/-- Settles O44: clear writes the framebuffer alone, and the blank framebuffer has every pixel off. -/
theorem clearTurnsEveryPixelOff : Obligations.ClearTurnsEveryPixelOff := by
  intro s
  exact ⟨blankDisplay, exec_clear s, blankDisplay_get⟩

end Sys2Proof.Machine
end

section
/-! The timers: read-delay is one write of Vx, write-delay one of DT and write-sound one of ST
(spec/44_keypad_timers.md R193, R198, R199), and the statement about them. -/

namespace Sys2Proof.Machine

theorem exec_readDelay (x : Fin 16) (s : State) : exec (.readDelay x) s = .next (s.setV x s.DT) := rfl

theorem exec_writeDelay (x : Fin 16) (s : State) : exec (.writeDelay x) s = .next (s.setDT s.V[x]) := rfl

theorem exec_writeSound (x : Fin 16) (s : State) : exec (.writeSound x) s = .next (s.setST s.V[x]) := rfl

/-- Settles O50: each instruction is one write of one component, and after read-delay a register reads as `State.setV_get`
says. -/
theorem timersAreReadAndWrittenThroughVx : Obligations.TimersAreReadAndWrittenThroughVx := by
  intro s x
  exact ⟨⟨(s.setV x s.DT).V, exec_readDelay x s, fun r => s.setV_get x r s.DT⟩, exec_writeDelay x s, exec_writeSound x s⟩

end Sys2Proof.Machine
end

section
/-! The host's TICK and its two queries: what TICK leaves in the state, and when the sound output is on
(spec/60_exceptions.md R220, R224, R225), and the statements about them. -/

namespace Sys2Proof.Machine

/-- R220: TICK is one write of DT, ST and the snapshot and keeps every other component. -/
theorem tickCommand_frame (s : State) :
    tickCommand s = { s with DT := countDown s.DT, ST := countDown s.ST, prevKeys := s.keys } := rfl

theorem runCommand_tick (s : State) : runCommand .tick s = .next (tickCommand s) := rfl

/-- Settles O54, by the frame of TICK and the law `countDown_toNat` for each timer. -/
theorem tickCountsDownAndSnapshotsKeys : Obligations.TickCountsDownAndSnapshotsKeys := by
  intro s
  refine ⟨countDown s.DT, countDown s.ST, ?transition, countDown_toNat s.DT, countDown_toNat s.ST⟩
  case transition => rw [runCommand_tick, tickCommand_frame]

theorem runCommand_display (s : State) : runCommand .display s = .next s := rfl

theorem runCommand_sound (s : State) : runCommand .sound s = .next s := rfl

theorem respond_display (s : State) : respond .display s = .grid s.disp := rfl

theorem soundOutput_eq_true_iff (s : State) : soundOutput s = true ↔ 0 < s.ST.toNat := decide_eq_true_iff

theorem soundOutput_eq_false_iff (s : State) : soundOutput s = false ↔ s.ST.toNat = 0 :=
  decide_eq_false_iff_not.trans (Nat.not_lt.trans Nat.le_zero)

theorem respond_sound_eq_level_iff (s : State) (on : Bool) : respond .sound s = .level on ↔ soundOutput s = on :=
  Iff.of_eq (Response.level.injEq (soundOutput s) on)

/-- Settles O58: a query's transition is the identity, and the level it answers is the sound output. -/
theorem queriesAnswerAndChangeNothing : Obligations.QueriesAnswerAndChangeNothing := by
  intro s
  exact ⟨runCommand_display s, respond_display s, runCommand_sound s,
    (respond_sound_eq_level_iff s true).trans (soundOutput_eq_true_iff s),
    (respond_sound_eq_level_iff s false).trans (soundOutput_eq_false_iff s)⟩

end Sys2Proof.Machine
end

section
/-! Decode and encode, the two round trips (spec/30_encoding.md R73, R75, R84): a packed word decodes by its own fields, and
a word is the packing of its fields. -/

namespace Sys2Proof

/-- R76: `packNNN` in family 0 is neither of the two words that are other instructions, where the target is encodable. -/
theorem decodeFamily0_packNNN {nnn : BitVec 12} (h : sysTargetEncodable nnn = true) :
    decodeFamily0 (packNNN 0#4 nnn) = .instr (.sys nnn) := by
  simp only [sysTargetEncodable, Bool.and_eq_true, bne_iff_ne] at h
  obtain ⟨hclear, hret⟩ := h
  have ne_clear : packNNN 0#4 nnn ≠ 0x00E0#16 := fun e => hclear <| by
    rw [← nnnField_packNNN 0#4 nnn, e]
    rfl
  have ne_ret : packNNN 0#4 nnn ≠ 0x00EE#16 := fun e => hret <| by
    rw [← nnnField_packNNN 0#4 nnn, e]
    rfl
  simp [decodeFamily0, ne_clear, ne_ret]

/-- Settles O1: the fields of a packed word are the operands it was packed from, and the family and the sub-opcode select
the instruction's own branch of the decoder. -/
theorem encodedInstructionDecodesToItself : Obligations.EncodedInstructionDecodesToItself := by
  intro i hwf
  cases i with
  | clear | ret => rfl
  | sys nnn => exact (decode_family0 (opField_packNNN 0#4 nnn)).trans (decodeFamily0_packNNN hwf)
  | jump | call | loadIndex | jumpOffset => simp [encode, decode]
  | skipEqImm | skipNeImm | loadImm | addImm | random => simp [encode, decode]
  | skipEqReg | skipNeReg | draw => simp [encode, decode]
  | copy | orReg | andReg | xorReg | addReg | sub | shr | subn | shl => simp [encode, decode, decodeFamily8]
  | skipKeyDown | skipKeyUp => simp [encode, decode, decodeFamilyE]
  | readDelay | waitKey | writeDelay | writeSound | addIndex | fontAddr | bcd | storeRegs | loadRegs =>
    simp [encode, decode, decodeFamilyF]

/-! ### A word from its family, its sub-opcode and its operand fields -/

theorem packNNN_of_opField {w : Word} {op : BitVec 4} (hop : opField w = op) : packNNN op (nnnField w) = w := by
  rw [← hop, packNNN_fields]

theorem packXKK_of_fields {w : Word} {op : BitVec 4} {kk : Byte} (hop : opField w = op) (hkk : kkField w = kk) :
    packXKK op (xField w) kk = w := by
  rw [← hop, ← hkk, packXKK_fields]

theorem packXYN_of_fields {w : Word} {op n : BitVec 4} (hop : opField w = op) (hn : nField w = n) :
    packXYN op (xField w) (yField w) n = w := by
  rw [← hop, ← hn, packXYN_fields]

/-- The verdict `d` on `w` is an encoding of `w`, or NOP. -/
def VerdictEncodes (w : Word) (d : Decoded) : Prop :=
  ∀ i, d = .instr i → i.wellFormed = true ∧ encode i = w

theorem verdictEncodes_nop (w : Word) : VerdictEncodes w .nop := fun _ h => Decoded.noConfusion h

theorem verdictEncodes_instr {w : Word} {i : Instr} (hwf : i.wellFormed = true) (h : encode i = w) :
    VerdictEncodes w (.instr i) := by
  rintro _ ⟨⟩
  exact ⟨hwf, h⟩

theorem verdictEncodes_ite {w : Word} {p : Prop} [Decidable p] {d e : Decoded} (hd : p → VerdictEncodes w d)
    (he : ¬ p → VerdictEncodes w e) : VerdictEncodes w (if p then d else e) := by
  split
  · next h => exact hd h
  · next h => exact he h

theorem decodeFamily0_encodes {w : Word} (hop : opField w = 0x0#4) : VerdictEncodes w (decodeFamily0 w) := by
  refine verdictEncodes_ite (fun h => verdictEncodes_instr rfl h.symm) fun hclear =>
    verdictEncodes_ite (fun h => verdictEncodes_instr rfl h.symm) fun hret =>
    verdictEncodes_instr ?_ (packNNN_of_opField hop)
  have packed : ∀ a, nnnField w = a → w = packNNN 0x0#4 a := by
    rintro _ rfl
    exact (packNNN_of_opField hop).symm
  simp only [Instr.wellFormed, sysTargetEncodable, Bool.and_eq_true, bne_iff_ne]
  exact ⟨fun h => hclear (packed _ h), fun h => hret (packed _ h)⟩

theorem decodeFamily8_encodes {w : Word} (hop : opField w = 0x8#4) : VerdictEncodes w (decodeFamily8 w) := by
  unfold decodeFamily8
  repeat' refine verdictEncodes_ite (fun h => verdictEncodes_instr rfl (packXYN_of_fields hop h)) fun _ => ?_
  exact verdictEncodes_nop w

theorem decodeFamilyE_encodes {w : Word} (hop : opField w = 0xE#4) : VerdictEncodes w (decodeFamilyE w) := by
  unfold decodeFamilyE
  repeat' refine verdictEncodes_ite (fun h => verdictEncodes_instr rfl (packXKK_of_fields hop h)) fun _ => ?_
  exact verdictEncodes_nop w

theorem decodeFamilyF_encodes {w : Word} (hop : opField w = 0xF#4) : VerdictEncodes w (decodeFamilyF w) := by
  unfold decodeFamilyF
  repeat' refine verdictEncodes_ite (fun h => verdictEncodes_instr rfl (packXKK_of_fields hop h)) fun _ => ?_
  exact verdictEncodes_nop w

theorem decode_encodes (w : Word) : VerdictEncodes w (decode w) := by
  rcases nibble_cases (opField w) with h | h | h | h | h | h | h | h | h | h | h | h | h | h | h | h
  · rw [decode_family0 h]
    exact decodeFamily0_encodes h
  · rw [decode_family1 h]
    exact verdictEncodes_instr rfl (packNNN_of_opField h)
  · rw [decode_family2 h]
    exact verdictEncodes_instr rfl (packNNN_of_opField h)
  · rw [decode_family3 h]
    exact verdictEncodes_instr rfl (packXKK_of_fields h rfl)
  · rw [decode_family4 h]
    exact verdictEncodes_instr rfl (packXKK_of_fields h rfl)
  · rw [decode_family5 h]
    exact verdictEncodes_ite (fun hn => verdictEncodes_instr rfl (packXYN_of_fields h hn)) fun _ => verdictEncodes_nop w
  · rw [decode_family6 h]
    exact verdictEncodes_instr rfl (packXKK_of_fields h rfl)
  · rw [decode_family7 h]
    exact verdictEncodes_instr rfl (packXKK_of_fields h rfl)
  · rw [decode_family8 h]
    exact decodeFamily8_encodes h
  · rw [decode_family9 h]
    exact verdictEncodes_ite (fun hn => verdictEncodes_instr rfl (packXYN_of_fields h hn)) fun _ => verdictEncodes_nop w
  · rw [decode_familyA h]
    exact verdictEncodes_instr rfl (packNNN_of_opField h)
  · rw [decode_familyB h]
    exact verdictEncodes_instr rfl (packNNN_of_opField h)
  · rw [decode_familyC h]
    exact verdictEncodes_instr rfl (packXKK_of_fields h rfl)
  · rw [decode_familyD h]
    exact verdictEncodes_instr rfl (packXYN_of_fields h rfl)
  · rw [decode_familyE h]
    exact decodeFamilyE_encodes h
  · rw [decode_familyF h]
    exact decodeFamilyF_encodes h

/-- Settles O2, by the verdict of each family. -/
theorem decodedWordIsItsEncoding : Obligations.DecodedWordIsItsEncoding := fun w i h => decode_encodes w i h

theorem decodeBytes_pair_eq_iff (hi lo : Byte) (d : Decoded) :
    decodeBytes [hi, lo] = .ok (d, []) ↔ decode (wordOfBytes hi lo) = d := by
  simp [decodeBytes]

/-- Settles O5: the two bytes make one word, and each verdict on a word is a computation. -/
theorem writtenOutWordsDecode : Obligations.WrittenOutWordsDecode := by
  simp only [Obligations.WrittenOutWordsDecode, decodeBytes_pair_eq_iff]
  decide

end Sys2Proof
end

section
/-! The opcode map (spec/30_encoding.md R81, R84): which words are NOP, which match a row, and that the decoder answers the
first row a word matches. -/

namespace Sys2Proof

/-! ### The words that are NOP (R81) -/

theorem decodeFamily0_ne_nop (w : Word) : decodeFamily0 w ≠ .nop := by
  unfold decodeFamily0
  repeat' split
  all_goals exact Decoded.noConfusion

theorem decodeFamily8_eq_nop_iff (w : Word) :
    decodeFamily8 w = .nop ↔ nField w ∈ [0x8#4, 0x9#4, 0xA#4, 0xB#4, 0xC#4, 0xD#4, 0xF#4] := by
  rcases nibble_cases (nField w) with h | h | h | h | h | h | h | h | h | h | h | h | h | h | h | h <;>
    simp [decodeFamily8, h]

theorem decodeFamilyE_eq_nop_iff (w : Word) : decodeFamilyE w = .nop ↔ kkField w ∉ [0x9E#8, 0xA1#8] := by
  simp [decodeFamilyE, ite_eq_iff]

theorem decodeFamilyF_eq_nop_iff (w : Word) : decodeFamilyF w = .nop ↔
    kkField w ∉ [0x07#8, 0x0A#8, 0x15#8, 0x18#8, 0x1E#8, 0x29#8, 0x33#8, 0x55#8, 0x65#8] := by
  simp [decodeFamilyF, ite_eq_iff]

/-- Settles O4, family by family: each has no NOP, or those of its own lemma, or the words whose low nibble is not 0. -/
theorem nopWordsAreTheUnlistedSubopcodes : Obligations.NopWordsAreTheUnlistedSubopcodes := by
  intro w
  rcases nibble_cases (opField w) with h | h | h | h | h | h | h | h | h | h | h | h | h | h | h | h <;>
    simp [decode, h, decodeFamily0_ne_nop, decodeFamily8_eq_nop_iff, decodeFamilyE_eq_nop_iff, decodeFamilyF_eq_nop_iff]

/-! ### A masked word keeps the fields its mask covers -/

theorem and_FFFF (w : Word) : w &&& 0xFFFF = w := BitVec.and_allOnes

theorem and_F000 (w : Word) : w &&& 0xF000 = packXKK (opField w) 0 0 := by
  apply BitVec.eq_of_getLsbD_eq
  intro i hi
  rw [BitVec.getLsbD_and, getLsbD_packXKK]
  interval_cases i <;> simp [opField]

theorem and_F00F (w : Word) : w &&& 0xF00F = packXYN (opField w) 0 0 (nField w) := by
  apply BitVec.eq_of_getLsbD_eq
  intro i hi
  rw [BitVec.getLsbD_and, getLsbD_packXYN]
  interval_cases i <;> simp [opField, nField]

theorem and_F0FF (w : Word) : w &&& 0xF0FF = packXKK (opField w) 0 (kkField w) := by
  apply BitVec.eq_of_getLsbD_eq
  intro i hi
  rw [BitVec.getLsbD_and, getLsbD_packXKK]
  interval_cases i <;> simp [opField, kkField]

/-! ### Matching a row, in fields; a row's own fields are numbers of its value -/

theorem opField_eq_ofNat (w : Word) : opField w = BitVec.ofNat 4 (w.toNat / 4096) := by
  apply BitVec.eq_of_toNat_eq
  rw [opField, BitVec.extractLsb'_toNat, BitVec.toNat_ofNat, Nat.shiftRight_eq_div_pow]

theorem nField_eq_ofNat (w : Word) : nField w = BitVec.ofNat 4 w.toNat := by
  apply BitVec.eq_of_toNat_eq
  rw [nField, BitVec.extractLsb'_toNat, BitVec.toNat_ofNat, Nat.shiftRight_zero]

theorem kkField_eq_ofNat (w : Word) : kkField w = BitVec.ofNat 8 w.toNat := by
  apply BitVec.eq_of_toNat_eq
  rw [kkField, BitVec.extractLsb'_toNat, BitVec.toNat_ofNat, Nat.shiftRight_zero]

theorem matchesWord_iff_and (m : String) (mask v w : Word) : Row.matchesWord ⟨m, mask, v⟩ w = true ↔ w &&& mask = v :=
  beq_iff_eq

theorem matchesWord_FFFF (m : String) (v w : Word) : Row.matchesWord ⟨m, 0xFFFF, v⟩ w = true ↔
    opField w = BitVec.ofNat 4 (v.toNat / 4096) ∧ w = v := by
  rw [matchesWord_iff_and, and_FFFF, ← opField_eq_ofNat]
  exact ⟨fun h => ⟨congrArg opField h, h⟩, And.right⟩

theorem matchesWord_F000 (m : String) {v : Word} (w : Word) (hv : v &&& 0xF000 = v) :
    Row.matchesWord ⟨m, 0xF000, v⟩ w = true ↔ opField w = BitVec.ofNat 4 (v.toNat / 4096) := by
  rw [matchesWord_iff_and, ← opField_eq_ofNat]
  constructor
  · rintro rfl
    rw [and_F000, opField_packXKK]
  · intro h
    rw [and_F000, h, ← and_F000, hv]

theorem matchesWord_F00F (m : String) {v : Word} (w : Word) (hv : v &&& 0xF00F = v) :
    Row.matchesWord ⟨m, 0xF00F, v⟩ w = true ↔
      opField w = BitVec.ofNat 4 (v.toNat / 4096) ∧ nField w = BitVec.ofNat 4 v.toNat := by
  rw [matchesWord_iff_and, ← opField_eq_ofNat, ← nField_eq_ofNat]
  constructor
  · rintro rfl
    rw [and_F00F, opField_packXYN, nField_packXYN]
    exact ⟨rfl, rfl⟩
  · rintro ⟨hop, hn⟩
    rw [and_F00F, hop, hn, ← and_F00F, hv]

theorem matchesWord_F0FF (m : String) {v : Word} (w : Word) (hv : v &&& 0xF0FF = v) :
    Row.matchesWord ⟨m, 0xF0FF, v⟩ w = true ↔
      opField w = BitVec.ofNat 4 (v.toNat / 4096) ∧ kkField w = BitVec.ofNat 8 v.toNat := by
  rw [matchesWord_iff_and, ← opField_eq_ofNat, ← kkField_eq_ofNat]
  constructor
  · rintro rfl
    rw [and_F0FF, opField_packXKK, kkField_packXKK]
    exact ⟨rfl, rfl⟩
  · rintro ⟨hop, hkk⟩
    rw [and_F0FF, hop, hkk, ← and_F0FF, hv]

/-! ### The first row a word matches -/

theorem map_find?_cons {α β : Type} (p : α → Bool) (f : α → β) (a : α) (l : List α) :
    ((a :: l).find? p).map f = if p a = true then some (f a) else (l.find? p).map f := by
  rw [List.find?_cons]
  cases p a <;> rfl

theorem mnemonic?_instr (i : Instr) : (Decoded.instr i).mnemonic? = some i.mnemonic := rfl

theorem mnemonic?_nop : Decoded.nop.mnemonic? = none := rfl

/-- The map read from the top and the decoder's verdict are the same case distinction on the fields, family by family. -/
theorem mnemonic?_decode_eq_first_row (w : Word) :
    (decode w).mnemonic? = (opcodeTable.find? (fun r => r.matchesWord w)).map Row.mnemonic := by
  simp +decide only [opcodeTable, opcodeRows1, opcodeRows2, opcodeRows3, opcodeRows4, List.cons_append, List.nil_append,
    map_find?_cons, List.find?_nil, Option.map_none, matchesWord_FFFF, matchesWord_F000, matchesWord_F00F,
    matchesWord_F0FF, BitVec.reduceToNat, Nat.reduceDiv, BitVec.reduceOfNat]
  rcases nibble_cases (opField w) with h | h | h | h | h | h | h | h | h | h | h | h | h | h | h | h <;>
    simp [decode, h, decodeFamily0, decodeFamily8, decodeFamilyE, decodeFamilyF, apply_ite Decoded.mnemonic?,
      mnemonic?_instr, mnemonic?_nop, Instr.mnemonic]

/-! ### At most one row, but for `sys` -/

/-- Two rows that one word matches give both their masks the same bits. -/
theorem values_agree_of_matches {r₁ r₂ : Row} {w : Word} (h₁ : r₁.matchesWord w = true) (h₂ : r₂.matchesWord w = true) :
    r₁.value &&& r₂.mask = r₂.value &&& r₁.mask := by
  simp only [Row.matchesWord, beq_iff_eq] at h₁ h₂
  rw [← h₁, ← h₂, BitVec.and_assoc, BitVec.and_assoc, BitVec.and_comm r₁.mask]

theorem rows_differ_unless_sys : ∀ r₁ ∈ opcodeTable, ∀ r₂ ∈ opcodeTable, r₁.value &&& r₂.mask = r₂.value &&& r₁.mask →
    r₁ = r₂ ∨ r₁.mnemonic = "sys" ∨ r₂.mnemonic = "sys" := by
  decide

/-- Settles O3: the first row is `mnemonic?_decode_eq_first_row`; that two rows exclude each other is a fact about the 35
masks and values. -/
theorem decodeIsFirstMatchingRowOfOpcodeMap : Obligations.DecodeIsFirstMatchingRowOfOpcodeMap :=
  ⟨mnemonic?_decode_eq_first_row, fun _ r₁ m₁ r₂ m₂ h₁ h₂ =>
    rows_differ_unless_sys r₁ m₁ r₂ m₂ (values_agree_of_matches h₁ h₂)⟩

end Sys2Proof
end

section
/-! Arithmetic (spec/41_registers_alu.md R126 to R141): the instructions that write Vx and VF, in the two orders of the
writes, random, and the statements about them. -/

namespace Sys2Proof.Machine

/-! ### The two orders of the writes (R141) -/

/-- Vx first, VF last: VF ends as the flag whatever `x` is. -/
theorem setResultThenFlag_writes (s : State) (x : Fin 16) (value flag : Byte) : ∃ W : Vector Byte 16,
    setResultThenFlag s x value flag = { s with V := W } ∧ W[(15 : Fin 16)] = flag ∧ (x ≠ 15 → W[x] = value) ∧
      ∀ r : Fin 16, r ≠ x → r ≠ 15 → W[r] = s.V[r] := by
  refine ⟨(setResultThenFlag s x value flag).V, rfl, ?_, fun hx => ?_, fun r hrx hr => ?_⟩
  · rw [setResultThenFlag_get, if_pos rfl]
  · rw [setResultThenFlag_get, if_neg hx, if_pos rfl]
  · rw [setResultThenFlag_get, if_neg hr, if_neg hrx]

/-- VF first, Vx last: Vx ends as the result whatever `x` is. -/
theorem setFlagThenResult_writes (s : State) (x : Fin 16) (value flag : Byte) : ∃ W : Vector Byte 16,
    setFlagThenResult s x value flag = { s with V := W } ∧ W[x] = value ∧ (x ≠ 15 → W[(15 : Fin 16)] = flag) ∧
      ∀ r : Fin 16, r ≠ x → r ≠ 15 → W[r] = s.V[r] := by
  refine ⟨(setFlagThenResult s x value flag).V, rfl, ?_, fun hx => ?_, fun r hrx hr => ?_⟩
  · rw [setFlagThenResult_get, if_pos rfl]
  · rw [setFlagThenResult_get, if_neg hx.symm, if_pos rfl]
  · rw [setFlagThenResult_get, if_neg hrx, if_neg hr]

/-! ### What each instruction is -/

theorem exec_orReg (x y : Fin 16) (s : State) :
    exec (.orReg x y) s = .next (setResultThenFlag s x (s.V[x] ||| s.V[y]) 0#8) := rfl

theorem exec_andReg (x y : Fin 16) (s : State) :
    exec (.andReg x y) s = .next (setResultThenFlag s x (s.V[x] &&& s.V[y]) 0#8) := rfl

theorem exec_xorReg (x y : Fin 16) (s : State) :
    exec (.xorReg x y) s = .next (setResultThenFlag s x (s.V[x] ^^^ s.V[y]) 0#8) := rfl

theorem exec_addReg (x y : Fin 16) (s : State) :
    exec (.addReg x y) s = .next (setFlagThenResult s x (s.V[x] + s.V[y]) (carryFlag s.V[x] s.V[y])) := rfl

theorem exec_sub (x y : Fin 16) (s : State) :
    exec (.sub x y) s = .next (setFlagThenResult s x (s.V[x] - s.V[y]) (greaterFlag s.V[x] s.V[y])) := rfl

theorem exec_subn (x y : Fin 16) (s : State) :
    exec (.subn x y) s = .next (setFlagThenResult s x (s.V[y] - s.V[x]) (greaterFlag s.V[y] s.V[x])) := rfl

theorem exec_shr (x y : Fin 16) (s : State) :
    exec (.shr x y) s = .next (setFlagThenResult s x (s.V[y] >>> 1) (lowBitFlag s.V[y])) := rfl

theorem exec_shl (x y : Fin 16) (s : State) :
    exec (.shl x y) s = .next (setFlagThenResult s x (s.V[y] <<< 1) (highBitFlag s.V[y])) := rfl

theorem exec_random (x : Fin 16) (kk : Byte) (s : State) :
    exec (.random x kk) s = .next ((s.setPrng (Config.prngNext s.prng)).setV x (Config.prngNext s.prng &&& kk)) := rfl

/-! ### The statements -/

/-- Settles O30: Vx then VF, each operation bit by bit. -/
theorem bitwiseOperationsResetVf : Obligations.BitwiseOperationsResetVf := by
  intro s x y
  refine ⟨?orReg, ?andReg, ?xorReg⟩
  case orReg =>
    obtain ⟨W, e, hVF, hVx, hrest⟩ := setResultThenFlag_writes s x (s.V[x] ||| s.V[y]) 0#8
    exact ⟨W, by rw [exec_orReg, e], hVF, fun hx k _ => by rw [hVx hx, BitVec.getLsbD_or], hrest⟩
  case andReg =>
    obtain ⟨W, e, hVF, hVx, hrest⟩ := setResultThenFlag_writes s x (s.V[x] &&& s.V[y]) 0#8
    exact ⟨W, by rw [exec_andReg, e], hVF, fun hx k _ => by rw [hVx hx, BitVec.getLsbD_and], hrest⟩
  case xorReg =>
    obtain ⟨W, e, hVF, hVx, hrest⟩ := setResultThenFlag_writes s x (s.V[x] ^^^ s.V[y]) 0#8
    exact ⟨W, by rw [exec_xorReg, e], hVF, fun hx k _ => by rw [hVx hx, BitVec.getLsbD_xor], hrest⟩

/-- Settles O31: VF then Vx, the sum of the bytes and `carryFlag_toNat`. -/
theorem addRegGivesSumAndCarry : Obligations.AddRegGivesSumAndCarry := by
  intro s x y
  obtain ⟨W, e, hVx, hVF, hrest⟩ := setFlagThenResult_writes s x (s.V[x] + s.V[y]) (carryFlag s.V[x] s.V[y])
  exact ⟨W, by rw [exec_addReg, e], by rw [hVx, BitVec.toNat_add], fun hx => by rw [hVF hx, carryFlag_toNat], hrest⟩

/-- A difference of bytes, in the order the statements write it. -/
theorem byte_sub_toNat (a b : Byte) : (a - b).toNat = (a.toNat + 256 - b.toNat) % 256 := by
  have := b.isLt
  rw [BitVec.toNat_sub]
  congr 1
  omega

/-- Settles O32: VF then Vx, the difference of the bytes and `greaterFlag_toNat`. -/
theorem subtractionsFlagAStrictlyGreaterMinuend : Obligations.SubtractionsFlagAStrictlyGreaterMinuend := by
  intro s x y
  constructor
  · obtain ⟨W, e, hVx, hVF, hrest⟩ := setFlagThenResult_writes s x (s.V[x] - s.V[y]) (greaterFlag s.V[x] s.V[y])
    exact ⟨W, by rw [exec_sub, e], by rw [hVx, byte_sub_toNat], fun hx => by rw [hVF hx, greaterFlag_toNat], hrest⟩
  · obtain ⟨W, e, hVx, hVF, hrest⟩ := setFlagThenResult_writes s x (s.V[y] - s.V[x]) (greaterFlag s.V[y] s.V[x])
    exact ⟨W, by rw [exec_subn, e], by rw [hVx, byte_sub_toNat], fun hx => by rw [hVF hx, greaterFlag_toNat], hrest⟩

theorem byte_shiftRight_one_toNat (v : Byte) : (v >>> 1).toNat = v.toNat / 2 := by
  rw [BitVec.toNat_ushiftRight, Nat.shiftRight_one]

theorem byte_shiftLeft_one_toNat (v : Byte) : (v <<< 1).toNat = v.toNat * 2 % 256 := by
  rw [BitVec.toNat_shiftLeft, Nat.shiftLeft_eq, pow_one]

/-- Settles O33: VF then Vx, and the laws of the two flags. -/
theorem shiftsReadVyAndFlagTheDroppedBit : Obligations.ShiftsReadVyAndFlagTheDroppedBit := by
  intro s x y
  constructor
  · obtain ⟨W, e, hVx, hVF, hrest⟩ := setFlagThenResult_writes s x (s.V[y] >>> 1) (lowBitFlag s.V[y])
    exact ⟨W, by rw [exec_shr, e], by rw [hVx, byte_shiftRight_one_toNat], fun hx => by rw [hVF hx, lowBitFlag_toNat],
      hrest⟩
  · obtain ⟨W, e, hVx, hVF, hrest⟩ := setFlagThenResult_writes s x (s.V[y] <<< 1) (highBitFlag s.V[y])
    exact ⟨W, by rw [exec_shl, e], by rw [hVx, byte_shiftLeft_one_toNat], fun hx => by rw [hVF hx, highBitFlag_toNat],
      hrest⟩

/-- Settles O34: the new PRNG state is both kept and, under the mask, written to Vx. -/
theorem randomMasksTheNewPrngState : Obligations.RandomMasksTheNewPrngState := by
  intro s x kk
  let p := Config.prngNext s.prng
  refine ⟨((s.setPrng p).setV x (p &&& kk)).V, p, exec_random x kk s, rfl, fun k _ => ?_, fun r hr => ?_⟩
  · rw [State.setV_get, if_pos rfl, BitVec.getLsbD_and]
  · rw [State.setV_get, if_neg hr, State.setPrng_V]

end Sys2Proof.Machine
end

section
/-! Control flow through the stack, the offset jump, the key skips and wait-key: what each comes to on either side of its
condition (spec/40_control_flow.md R100, R102, R112; spec/44_keypad_timers.md R190 to R197), and the statements about them.
The index register's addition stands with them (spec/42_index_memory.md R152). -/

namespace Sys2Proof.Machine

/-! ### Sums of words -/

/-- At most 0xFFF + 0xFF, so the 16-bit sum does not wrap. -/
theorem offsetOperand_toNat (s : State) (nnn : BitVec 12) :
    (offsetOperand s nnn).toNat = nnn.toNat + s.V[(0 : Fin 16)].toNat := by
  have := nnn.isLt
  have := s.V[(0 : Fin 16)].isLt
  rw [offsetOperand, BitVec.toNat_add, addressOperand_toNat, wordOfByte_toNat]
  omega

theorem exec_jumpOffset (nnn : BitVec 12) (s : State) :
    exec (.jumpOffset nnn) s = .next (s.setPC (offsetOperand s nnn)) := rfl

/-- Settles O27: one write of PC, by a sum that does not wrap. -/
theorem jumpOffsetAddsV0 : Obligations.JumpOffsetAddsV0 := by
  intro s nnn
  exact ⟨offsetOperand s nnn, exec_jumpOffset nnn s, offsetOperand_toNat s nnn⟩

theorem exec_addIndex (x : Fin 16) (s : State) : exec (.addIndex x) s = .next (s.setI (s.I + wordOfByte s.V[x])) := rfl

/-- Settles O36: one write of I, by the 16-bit sum. -/
theorem addIndexWrapsAtSixteenBits : Obligations.AddIndexWrapsAtSixteenBits := by
  intro s x
  exact ⟨s.I + wordOfByte s.V[x], exec_addIndex x s, by rw [BitVec.toNat_add, wordOfByte_toNat]⟩

/-! ### The stack -/

theorem exec_ret (s : State) : exec .ret s = withStackPointer s fun sp =>
    if sp = 0 then raise (.stackUnderflow (s.PC - 2#16)) s else .next ((s.setPC s.stack[sp]).setSP (s.SP - 1#8)) := rfl

theorem exec_call (nnn : BitVec 12) (s : State) : exec (.call nnn) s = withStackPointer s fun sp =>
    if sp = 15 then raise (.stackOverflow (s.PC - 2#16)) s
    else .next (((s.setSP (s.SP + 1#8)).setStack (sp + 1) s.PC).setPC (addressOperand nnn)) := rfl

theorem exec_ret_empty {s : State} (h : s.SP.toNat = 0) : exec .ret s = raise (.stackUnderflow (s.PC - 2#16)) s := by
  have hlt : s.SP.toNat < 16 := by omega
  rw [exec_ret, withStackPointer_legal _ hlt, if_pos (Fin.ext h)]

theorem exec_ret_pops {s : State} {j : Fin 16} (h : j.val = s.SP.toNat) (h0 : j ≠ 0) :
    exec .ret s = .next ((s.setPC s.stack[j]).setSP (s.SP - 1#8)) := by
  have hlt : s.SP.toNat < 16 := by omega
  obtain rfl : j = ⟨s.SP.toNat, hlt⟩ := Fin.ext h
  rw [exec_ret, withStackPointer_legal _ hlt, if_neg h0]

/-- Settles O23: the two outcomes of `return`. -/
theorem returnPopsTheTopSlot : Obligations.ReturnPopsTheTopSlot := by
  intro s
  refine ⟨fun h => exec_ret_empty h, fun j hj h0 => ⟨s.SP - 1#8, exec_ret_pops hj h0, ?_⟩⟩
  have hpos : j.val ≠ 0 := Fin.val_ne_zero_iff.2 h0
  rw [byte_sub_toNat]
  change (s.SP.toNat + 256 - 1) % 256 + 1 = _
  omega

theorem exec_call_full (nnn : BitVec 12) {s : State} (h : s.SP.toNat = 15) :
    exec (.call nnn) s = raise (.stackOverflow (s.PC - 2#16)) s := by
  have hlt : s.SP.toNat < 16 := by omega
  rw [exec_call, withStackPointer_legal _ hlt, if_pos (Fin.ext h)]

theorem exec_call_pushes (nnn : BitVec 12) {s : State} (h : s.SP.toNat < 15) :
    exec (.call nnn) s = .next (((s.setSP (s.SP + 1#8)).setStack ⟨s.SP.toNat + 1, by omega⟩ s.PC).setPC
      (addressOperand nnn)) := by
  have hlt : s.SP.toNat < 16 := by omega
  have hne : (⟨s.SP.toNat, hlt⟩ : Fin 16) ≠ 15 := fun e => h.ne (congrArg Fin.val e)
  have hsucc : (⟨s.SP.toNat, hlt⟩ + 1 : Fin 16) = ⟨s.SP.toNat + 1, by omega⟩ :=
    Fin.ext (Nat.mod_eq_of_lt (show s.SP.toNat + 1 < 16 by omega))
  rw [exec_call, withStackPointer_legal _ hlt, if_neg hne, hsucc]

theorem sp_add_one_toNat {v : Byte} (h : v.toNat < 15) : (v + 1#8).toNat = v.toNat + 1 := by
  rw [BitVec.toNat_add]
  change (v.toNat + 1) % 256 = _
  omega

/-- Settles O24: the two outcomes of `call`; the slot written is `State.setStack_get`. -/
theorem callPushesThePostAdvancePc : Obligations.CallPushesThePostAdvancePc := by
  intro s nnn
  refine ⟨fun h => exec_call_full nnn h, fun h => ⟨_, _, _, exec_call_pushes nnn h, sp_add_one_toNat h,
    addressOperand_toNat nnn, fun j => ?_⟩⟩
  refine (State.setStack_get (s.setSP (s.SP + 1#8)) _ j s.PC).trans ?_
  simp only [Fin.ext_iff, State.setSP_stack]

/-! ### The keys -/

theorem exec_skipKeyDown (x : Fin 16) (s : State) :
    exec (.skipKeyDown x) s = withKeyIndex s x fun k => .next (skipIf s.keys[k] s) := rfl

theorem exec_skipKeyUp (x : Fin 16) (s : State) :
    exec (.skipKeyUp x) s = withKeyIndex s x fun k => .next (skipIf (!s.keys[k]) s) := rfl

theorem skipIf_eq (c : Bool) (s : State) : skipIf c s = { s with PC := if c = true then s.PC + 2#16 else s.PC } := by
  cases c <;> rfl

theorem skipIf_not_eq (c : Bool) (s : State) : skipIf (!c) s = { s with PC := if c = true then s.PC else s.PC + 2#16 } := by
  cases c <;> rfl

/-- Settles O49, by the two outcomes of a key index. -/
theorem keySkipsTestTheHeldKey : Obligations.KeySkipsTestTheHeldKey := by
  intro s x
  rw [exec_skipKeyDown, exec_skipKeyUp]
  constructor
  · intro k hk
    rw [withKeyIndex_legal _ hk, withKeyIndex_legal _ hk, skipIf_eq, skipIf_not_eq]
    exact ⟨rfl, rfl⟩
  · intro h
    exact ⟨withKeyIndex_illegal _ h, withKeyIndex_illegal _ h⟩

theorem exec_waitKey_edge (x : Fin 16) {s : State} {k : Fin 16} (h : firstRisingEdge s = some k) :
    exec (.waitKey x) s = .next (s.setV x (BitVec.ofNat 8 k.val)) := by
  simp only [exec, execWaitKey, h]

theorem exec_waitKey_none (x : Fin 16) {s : State} (h : firstRisingEdge s = none) :
    exec (.waitKey x) s = .next (s.setPC (s.PC - 2#16)) := by
  simp only [exec, execWaitKey, h]

theorem risingEdge_eq_true_iff (s : State) (k : Fin 16) :
    risingEdge s k = true ↔ s.keys[k] = true ∧ s.prevKeys[k] = false := by
  simp [risingEdge]

theorem firstRisingEdge_eq_none_of_snapshot {s : State} (h : ∀ k : Fin 16, s.keys[k] = true → s.prevKeys[k] = true) :
    firstRisingEdge s = none := by
  refine firstRisingEdge_none.2 fun k => Bool.eq_false_iff.2 fun hk => ?_
  obtain ⟨held, before⟩ := (risingEdge_eq_true_iff s k).1 hk
  exact Bool.false_ne_true (before.symm.trans (h k held))

/-- Settles O51, by the law of the scan for either outcome. -/
theorem waitKeyTakesTheLowestRisingEdgeOrGoesBack : Obligations.WaitKeyTakesTheLowestRisingEdgeOrGoesBack := by
  intro s x
  refine ⟨fun k held before lowest => ?edge, fun h => exec_waitKey_none x (firstRisingEdge_eq_none_of_snapshot h)⟩
  case edge =>
    have hk : firstRisingEdge s = some k := firstRisingEdge_some.2 ⟨(risingEdge_eq_true_iff s k).2 ⟨held, before⟩,
      fun j hj => Bool.eq_false_iff.2 fun hj' => lowest j hj ((risingEdge_eq_true_iff s j).1 hj')⟩
    refine ⟨(s.setV x (BitVec.ofNat 8 k.val)).V, exec_waitKey_edge x hk, ?_, fun r hr => ?_⟩
    · rw [State.setV_get, if_pos rfl, BitVec.toNat_ofNat]
      omega
    · rw [State.setV_get, if_neg hr]

end Sys2Proof.Machine
end

section
/-! The transfers through I: bcd, store-regs and load-regs on either side of the index range (spec/42_index_memory.md R156,
R160, R162, R164), and the statements about them. -/

namespace Sys2Proof.Machine

/-! ### A run of bytes, inside and outside -/

theorem Memory.read_writeBytes_inside (m : Memory) (a : Nat) (vs : List Byte) {k : Nat} (h : k < vs.length) :
    (m.writeBytes a vs).read (a + k) = vs[k] := by
  rw [Memory.read_writeBytes, dif_pos (by omega)]
  congr 1
  omega

theorem Memory.read_writeBytes_outside (m : Memory) (a : Nat) (vs : List Byte) {b : Nat} (h : b < a ∨ a + vs.length ≤ b) :
    (m.writeBytes a vs).read b = m.read b := by
  rw [Memory.read_writeBytes, dif_neg (by omega)]

/-! ### bcd -/

theorem exec_bcd (x : Fin 16) (s : State) : exec (.bcd x) s =
    withIndexRange s 3 (.next (s.setMem (s.mem.writeBytes (indexAddress s 0) (bcdDigits s.V[x])))) := rfl

theorem read_bcdDigits (s : State) (v : Byte) (k : Fin 3) :
    (s.mem.writeBytes (indexAddress s 0) (bcdDigits v)).read (indexAddress s k) = (bcdDigits v)[k] :=
  s.mem.read_writeBytes_inside (indexAddress s 0) (bcdDigits v) k.isLt

/-- A digit fits in a byte. -/
theorem digit_toNat {d : Nat} (h : d < 10) : (BitVec.ofNat 8 d).toNat = d :=
  Nat.mod_eq_of_lt (by omega)

/-- Settles O37: the three digits are a run of three bytes. -/
theorem bcdStoresThreeDigits : Obligations.BcdStoresThreeDigits := by
  intro s x
  rw [exec_bcd]
  refine ⟨fun h => ⟨s.mem.writeBytes (indexAddress s 0) (bcdDigits s.V[x]),
    withIndexRange_legal _ (.inr (by omega)), ?hundreds, ?tens, ?units, ?others⟩,
    fun h => withIndexRange_illegal _ (by decide) (by omega)⟩
  all_goals have hbyte := s.V[x].isLt
  case hundreds => exact (congrArg BitVec.toNat (read_bcdDigits s s.V[x] 0)).trans (digit_toNat (by omega))
  case tens => exact (congrArg BitVec.toNat (read_bcdDigits s s.V[x] 1)).trans (digit_toNat (by omega))
  case units => exact (congrArg BitVec.toNat (read_bcdDigits s s.V[x] 2)).trans (digit_toNat (by omega))
  case others =>
    intro a h0 h1 h2
    refine s.mem.read_writeBytes_outside _ _ ?_
    simp only [indexAddress] at h0 h1 h2 ⊢
    rw [length_bcdDigits]
    omega

/-! ### store-regs and load-regs -/

theorem exec_storeRegs (x : Fin 16) (s : State) : exec (.storeRegs x) s =
    withIndexRange s (x.val + 1) (.next (advanceIndex (storeEach s (regsUpTo x)) x)) := rfl

theorem exec_loadRegs (x : Fin 16) (s : State) : exec (.loadRegs x) s =
    withIndexRange s (x.val + 1) (.next (advanceIndex (loadEach s (regsUpTo x)) x)) := rfl

/-- Settles O38, by the law of the block store. -/
theorem storeRegsCopiesV0ToVx : Obligations.StoreRegsCopiesV0ToVx := by
  intro s x
  rw [exec_storeRegs]
  refine ⟨fun h => ?completes, fun h => withIndexRange_illegal _ (by omega) (by omega)⟩
  case completes =>
    obtain ⟨m, e, hstored, hothers⟩ := storeEach_regsUpTo s x
    rw [withIndexRange_legal _ (.inr (by omega)), e]
    exact ⟨m, (advanceIndex s x).I, rfl, advanceIndex_toNat s x h, hstored, hothers⟩

/-- Settles O39, by the law of the block load. -/
theorem loadRegsFillsV0ToVx : Obligations.LoadRegsFillsV0ToVx := by
  intro s x
  rw [exec_loadRegs]
  refine ⟨fun h => ?completes, fun h => withIndexRange_illegal _ (by omega) (by omega)⟩
  case completes =>
    obtain ⟨W, e, hloaded⟩ := loadEach_regsUpTo s x
    rw [withIndexRange_legal _ (.inr (by omega)), e]
    exact ⟨W, (advanceIndex s x).I, rfl, advanceIndex_toNat s x h, hloaded⟩

/-- Settles O40: the load reads at each address what the store wrote there. -/
theorem storeThenLoadRestoresRegisters : Obligations.StoreThenLoadRestoresRegisters := by
  intro s t x W h hstore
  obtain ⟨m, i, e, hi, hstored, -⟩ := (storeRegsCopiesV0ToVx s x).1 h
  obtain rfl : { s with mem := m, I := i } = t := Host.Outcome.next.inj (e.symm.trans hstore)
  obtain ⟨W', i', e', hi', hloaded⟩ := (loadRegsFillsV0ToVx { s with mem := m, V := W } x).1 h
  refine ⟨_, e', BitVec.eq_of_toNat_eq (hi'.trans hi.symm), fun r hr => ?_, fun r hr => ?_⟩
  · exact ((hloaded r).trans (if_pos hr)).trans (hstored r hr)
  · exact (hloaded r).trans (if_neg hr)

/-- Settles O43: V0 and V1 are stored at the very bytes of the next fetch. -/
theorem storedWordIsFetchedNext : Obligations.StoredWordIsFetchedNext := by
  intro s x j hruns hx hfit hI hword
  have hpc : (s.PC + 2#16).toNat = s.PC.toNat + 2 := by
    rw [BitVec.toNat_add]
    change (s.PC.toNat + 2) % 65536 = _
    omega
  have hIpc : s.I.toNat = s.PC.toNat + 2 := by rw [hI, hpc]
  obtain ⟨m, i, e, -, hstored, -⟩ := (storeRegsCopiesV0ToVx (preAdvance s) x).1 (by rw [preAdvance_I]; omega)
  refine ⟨_, (step_runs hruns).trans e, rfl, ?next⟩
  case next =>
    have h0 : m.read (s.PC + 2#16).toNat = s.V[(0 : Fin 16)] := by
      rw [← hI]
      exact hstored 0 (Fin.zero_le x)
    have h1 : m.read ((s.PC + 2#16).toNat + 1) = s.V[(1 : Fin 16)] := by
      rw [← hI]
      exact hstored 1 hx
    have hnext : Safety.Runs { preAdvance s with mem := m, I := i } j := {
      live := hruns.live
      pc := by rw [preAdvance_PC, hpc]; omega
      word := by
        rw [← hword, ← h0, ← h1]
        rfl
      host := hruns.host }
    rw [step_runs hnext]
    simp only [preAdvance, State.setPC, BitVec.add_assoc]
    rfl

end Sys2Proof.Machine
end

section
/-! The draw: its three outcomes, and what it leaves on the display and in VF (spec/43_display.md R172 to R180), and the
statements about it. -/

namespace Sys2Proof.Machine

open Sys2Proof.Safety

/-- What the draw makes of the display of `s`, where it draws. -/
def drawOn (s : State) (x y n : Fin 16) : DrawState :=
  drawSprite s.disp s.V[x] s.V[y] (s.mem.readBytes (indexAddress s 0) n.val)

theorem exec_draw (x y n : Fin 16) (s : State) : exec (.draw x y n) s =
    if drawRejected s.V[x] s.V[y] then .next s
    else withIndexRange s n.val
      (.next ((s.setDisp (drawOn s x y n).disp).setVF (flagByte (drawOn s x y n).collision))) := rfl

/-- Settles O45: the rejection comes before everything else. -/
theorem rejectedDrawChangesNothing : Obligations.RejectedDrawChangesNothing := by
  intro s x y n h
  rw [exec_draw, if_pos ((drawRejected_iff _ _).2 h)]

theorem exec_draw_accepted {s : State} {x y : Fin 16} (n : Fin 16) (hx : s.V[x].toNat ≤ 63) (hy : s.V[y].toNat ≤ 32) :
    exec (.draw x y n) s = withIndexRange s n.val
      (.next ((s.setDisp (drawOn s x y n).disp).setVF (flagByte (drawOn s x y n).collision))) := by
  rw [exec_draw, drawRejected_false hx hy, if_neg Bool.false_ne_true]

/-- Settles O47: the range of all `n` bytes is tested before the first is drawn. -/
theorem drawPastMemoryFaultsBeforeDrawing : Obligations.DrawPastMemoryFaultsBeforeDrawing := by
  intro s x y n hx hy hn h
  rw [exec_draw_accepted n hx hy]
  exact withIndexRange_illegal _ (by omega) (by omega)

/-- The sprite bit the draw lays on a pixel. -/
def drawnBit (s : State) (x y n : Fin 16) (r : Fin 32) (c : Fin 64) : Bool :=
  spritePixel (fun k => s.readByte (indexAddress s k)) n.val (s.V[y].toNat % 32) (s.V[x].toNat % 64) r c

theorem spritePixel_of_memory (s : State) (x y n : Fin 16) (r : Fin 32) (c : Fin 64) :
    spritePixel (fun k => (s.mem.readBytes (indexAddress s 0) n.val).getD k 0)
      (s.mem.readBytes (indexAddress s 0) n.val).length (s.V[y].toNat % 32) (s.V[x].toNat % 64) r c =
    drawnBit s x y n r c :=
  spritePixel_readBytes s.mem (indexAddress s 0) n.val _ _ r c

theorem drawOn_disp (s : State) (x y n : Fin 16) (r : Fin 32) (c : Fin 64) :
    (drawOn s x y n).disp[r][c] = (s.disp[r][c] ^^ drawnBit s x y n r c) := by
  rw [drawOn, drawSprite, drawRows_get, spritePixel_of_memory]

theorem drawOn_collision_iff (s : State) (x y n : Fin 16) : (drawOn s x y n).collision = true ↔
    ∃ (r : Fin 32) (c : Fin 64), drawnBit s x y n r c = true ∧ s.disp[r][c] = true := by
  rw [drawOn, drawSprite, drawRows_collision]
  simp only [spritePixel_of_memory, Bool.false_eq_true, false_or]

/-- Settles O46: the loops' pixel and collision laws; VF is written last and alone among the registers. -/
theorem drawXorsTheClippedSprite : Obligations.DrawXorsTheClippedSprite := by
  intro s x y n hx hy hrange
  let d := drawOn s x y n
  rw [exec_draw_accepted n hx hy, withIndexRange_legal _ (by omega)]
  refine ⟨d.disp, ((s.setDisp d.disp).setVF (flagByte d.collision)).V, rfl, drawOn_disp s x y n, ?hit, ?miss, ?others⟩
  case hit =>
    rintro ⟨r, c, lit, bit⟩
    rw [State.setVF_get, if_pos rfl, (drawOn_collision_iff s x y n).2 ⟨r, c, bit, lit⟩]
    rfl
  case miss =>
    intro h
    have hc : d.collision = false := Bool.eq_false_iff.2 fun hc => by
      obtain ⟨r, c, bit, lit⟩ := (drawOn_collision_iff s x y n).1 hc
      exact Bool.false_ne_true ((h r c lit).symm.trans bit)
    rw [State.setVF_get, if_pos rfl, hc]
    rfl
  case others =>
    intro r hr
    rw [State.setVF_get, if_neg hr, State.setDisp_V]

theorem display_ext {d e : Display} (h : ∀ (r : Fin 32) (c : Fin 64), d[r][c] = e[r][c]) : d = e :=
  Vector.ext fun r hr => Vector.ext fun c hc => h ⟨r, hr⟩ ⟨c, hc⟩

/-- Settles O48: a draw that does not fault is rejected, and then so is the second, or draws, and then the second lays the
same bit on every pixel. -/
theorem drawingTwiceRestoresTheDisplay : Obligations.DrawingTwiceRestoresTheDisplay := by
  intro s t x y n hs hdraw ht
  by_cases hrej : 63 < s.V[x].toNat ∨ 32 < s.V[y].toNat
  · have first := rejectedDrawChangesNothing s x y n hrej
    obtain rfl : s = t := Host.Outcome.next.inj (first.symm.trans hdraw)
    exact ⟨s, first, rfl⟩
  · have hx : s.V[x].toNat ≤ 63 := by omega
    have hy : s.V[y].toNat ≤ 32 := by omega
    by_cases hrange : n.val = 0 ∨ s.I.toNat + (n.val - 1) ≤ 0xFFF
    · obtain ⟨d, W, e, hd, -⟩ := drawXorsTheClippedSprite s x y n hx hy hrange
      obtain rfl : { s with disp := d, V := W } = t := Host.Outcome.next.inj (e.symm.trans hdraw)
      obtain ⟨d', W', e', hd', -⟩ := drawXorsTheClippedSprite { s with disp := d } x y n hx hy hrange
      refine ⟨_, e', display_ext fun r c => (hd' r c).trans ?_⟩
      have twice : d[r][c] = (s.disp[r][c] ^^ drawnBit s x y n r c) := hd r c
      change (d[r][c] ^^ drawnBit s x y n r c) = s.disp[r][c]
      rw [twice, Bool.xor_assoc, Bool.xor_self, Bool.xor_false]
    · have first := drawPastMemoryFaultsBeforeDrawing s x y n hx hy (by omega) (by omega)
      obtain rfl := Host.Outcome.next.inj (first.symm.trans hdraw)
      exact absurd ht (Option.some_ne_none _)

end Sys2Proof.Machine
end

section
/-! Which instruction writes which component, said once for every instruction (spec/10_state.md R20 to R36), and the
statements that follow from it. -/

namespace Sys2Proof.Machine

open Sys2Proof.Safety

/-! ### The frame of an instruction -/

/-- `t` differs from `s` only where the instruction `i`, completing or raising its fault, may write. A component that an
instruction does not touch needs no argument: it is the old one by computation. -/
structure WritesOnly (i : Instr) (s t : State) : Prop where
  V : ∀ r : Fin 16, ¬ mayWriteReg i r → t.V[r] = s.V[r] := by exact fun _ _ => rfl
  PC : ¬ mayWritePc i → faultOf i s = none → t.PC = s.PC := by exact fun _ _ => rfl
  mem : (∀ x, i ≠ .bcd x) → (∀ x, i ≠ .storeRegs x) → t.mem = s.mem := by exact fun _ _ => rfl
  disp : i ≠ .clear → (∀ x y n, i ≠ .draw x y n) → t.disp = s.disp := by exact fun _ _ => rfl
  stack : (∀ a, i ≠ .call a) → t.stack = s.stack := by exact fun _ => rfl
  SP : (∀ a, i ≠ .call a) → i ≠ .ret → t.SP = s.SP := by exact fun _ _ => rfl
  DT : (∀ x, i ≠ .writeDelay x) → t.DT = s.DT := by exact fun _ => rfl
  ST : (∀ x, i ≠ .writeSound x) → t.ST = s.ST := by exact fun _ => rfl
  prng : (∀ x kk, i ≠ .random x kk) → t.prng = s.prng := by exact fun _ => rfl
  I : (∀ a, i ≠ .loadIndex a) → (∀ x, i ≠ .addIndex x) → (∀ x, i ≠ .fontAddr x) → (∀ x, i ≠ .storeRegs x) →
    (∀ x, i ≠ .loadRegs x) → t.I = s.I := by exact fun _ _ _ _ _ => rfl
  keys : t.keys = s.keys := by rfl
  prevKeys : t.prevKeys = s.prevKeys := by rfl
  pending : t.pending = s.pending := by rfl
  resets : t.resets = s.resets := by rfl

/-- The same of an outcome: it is about the next state, where there is one. -/
def OutcomeWritesOnly (i : Instr) (s : State) (o : Result) : Prop := ∀ t, o = .next t → WritesOnly i s t

section
variable {i : Instr} {s : State}

theorem outcomeWritesOnly_next {t : State} (h : WritesOnly i s t) : OutcomeWritesOnly i s (.next t) := by
  rintro _ ⟨⟩
  exact h

/-- A raise puts PC back, which matters only where PC is not `i`'s to write. -/
theorem outcomeWritesOnly_raise (f : Fault) (h : ¬ mayWritePc i → faultOf i s ≠ none) :
    OutcomeWritesOnly i s (raise f s) :=
  outcomeWritesOnly_next { PC := fun hpc hf => absurd hf (h hpc) }

theorem outcomeWritesOnly_withIndexRange {n : Nat} {t : State} (hn : faultOf i s = none → n = 0 ∨ s.I.toNat + n ≤ 0x1000)
    (h : WritesOnly i s t) : OutcomeWritesOnly i s (withIndexRange s n (.next t)) := by
  rcases withIndexRange_cases s n (.next t) with ⟨-, e⟩ | ⟨h0, h1, e⟩ <;> rw [e]
  · exact outcomeWritesOnly_next h
  · exact outcomeWritesOnly_raise _ fun _ hf => by have := hn hf; omega

theorem outcomeWritesOnly_withKeyIndex {x : Fin 16} {k : Fin 16 → Result} (hpc : mayWritePc i)
    (h : ∀ j, OutcomeWritesOnly i s (k j)) : OutcomeWritesOnly i s (withKeyIndex s x k) := by
  rcases withKeyIndex_cases s x k with ⟨j, -, e⟩ | ⟨-, e⟩ <;> rw [e]
  · exact h j
  · exact outcomeWritesOnly_raise _ (absurd hpc)

theorem outcomeWritesOnly_withStackPointer {k : Fin 16 → Result} (h : ∀ j, OutcomeWritesOnly i s (k j)) :
    OutcomeWritesOnly i s (withStackPointer s k) := by
  rcases withStackPointer_cases s k with ⟨j, -, e⟩ | ⟨-, e⟩ <;> rw [e]
  · exact h j
  · exact fun _ ht => nomatch ht

theorem outcomeWritesOnly_ite {p : Prop} [Decidable p] {o o' : Result} (h : OutcomeWritesOnly i s o)
    (h' : OutcomeWritesOnly i s o') : OutcomeWritesOnly i s (if p then o else o') := by
  split
  · exact h
  · exact h'

theorem writesOnly_skipIf (c : Bool) (hpc : mayWritePc i) : WritesOnly i s (skipIf c s) := by
  rw [skipIf_eq]
  exact { PC := absurd hpc }

/-- One write of Vx, Vx being `i`'s to write. -/
theorem writesOnly_setV {x : Fin 16} (v : Byte) (hx : mayWriteReg i x) : WritesOnly i s (s.setV x v) where
  V r hr := by
    have hne : r ≠ x := fun e => hr (e ▸ hx)
    rw [State.setV_get, if_neg hne]

theorem writesOnly_resultThenFlag {x : Fin 16} (v flag : Byte) (hi : ∀ r, mayWriteReg i r ↔ r = x ∨ r = 15) :
    WritesOnly i s (setResultThenFlag s x v flag) where
  V r hr := by
    obtain ⟨hx, hVF⟩ := not_or.1 (mt (hi r).2 hr)
    rw [setResultThenFlag_get, if_neg hVF, if_neg hx]

theorem writesOnly_flagThenResult {x : Fin 16} (v flag : Byte) (hi : ∀ r, mayWriteReg i r ↔ r = x ∨ r = 15) :
    WritesOnly i s (setFlagThenResult s x v flag) where
  V r hr := by
    obtain ⟨hx, hVF⟩ := not_or.1 (mt (hi r).2 hr)
    rw [setFlagThenResult_get, if_neg hx, if_neg hVF]

end

/-- An entry of the fault table that raises nothing: its condition fails. -/
theorem not_of_entry_eq_none {p : Prop} [Decidable p] {f : Fault} (h : (if p then some f else none) = none) : ¬ p :=
  fun hp => Option.some_ne_none f ((if_pos hp).symm.trans h)

/-- Every instruction in every state. -/
theorem exec_writesOnly (i : Instr) (s : State) : OutcomeWritesOnly i s (exec i s) := by
  cases i with
  | clear => exact outcomeWritesOnly_next { disp := fun h => absurd rfl h }
  | sys | jump | jumpOffset => exact outcomeWritesOnly_next { PC := fun h => absurd trivial h }
  | skipEqImm | skipNeImm | skipEqReg | skipNeReg => exact outcomeWritesOnly_next (writesOnly_skipIf _ trivial)
  | ret =>
    rw [exec_ret]
    refine outcomeWritesOnly_withStackPointer fun j => outcomeWritesOnly_ite
      (outcomeWritesOnly_raise _ fun h => absurd trivial h) (outcomeWritesOnly_next ?_)
    exact { PC := fun h => absurd trivial h, SP := fun _ h => absurd rfl h }
  | call a =>
    rw [exec_call]
    refine outcomeWritesOnly_withStackPointer fun j => outcomeWritesOnly_ite
      (outcomeWritesOnly_raise _ fun h => absurd trivial h) (outcomeWritesOnly_next ?_)
    exact { PC := fun h => absurd trivial h, SP := fun h => absurd rfl (h a), stack := fun h => absurd rfl (h a) }
  | skipKeyDown x =>
    rw [exec_skipKeyDown]
    exact outcomeWritesOnly_withKeyIndex trivial fun j => outcomeWritesOnly_next (writesOnly_skipIf _ trivial)
  | skipKeyUp x =>
    rw [exec_skipKeyUp]
    exact outcomeWritesOnly_withKeyIndex trivial fun j => outcomeWritesOnly_next (writesOnly_skipIf _ trivial)
  | loadImm | addImm | copy | readDelay => exact outcomeWritesOnly_next (writesOnly_setV _ rfl)
  | orReg | andReg | xorReg => exact outcomeWritesOnly_next (writesOnly_resultThenFlag _ _ fun _ => Iff.rfl)
  | addReg | sub | shr | subn | shl => exact outcomeWritesOnly_next (writesOnly_flagThenResult _ _ fun _ => Iff.rfl)
  | random x kk =>
    refine outcomeWritesOnly_next { V := fun r hr => ?_, prng := fun h => absurd rfl (h x kk) }
    exact (State.setV_get _ x r _).trans (if_neg hr)
  | loadIndex a => exact outcomeWritesOnly_next { I := fun h => absurd rfl (h a) }
  | addIndex x => exact outcomeWritesOnly_next { I := fun _ h => absurd rfl (h x) }
  | fontAddr x => exact outcomeWritesOnly_next { I := fun _ _ h => absurd rfl (h x) }
  | writeDelay x => exact outcomeWritesOnly_next { DT := fun h => absurd rfl (h x) }
  | writeSound x => exact outcomeWritesOnly_next { ST := fun h => absurd rfl (h x) }
  | waitKey x =>
    cases h : firstRisingEdge s with
    | none =>
      rw [exec_waitKey_none x h]
      exact outcomeWritesOnly_next { PC := fun h => absurd trivial h }
    | some k =>
      rw [exec_waitKey_edge x h]
      exact outcomeWritesOnly_next (writesOnly_setV _ rfl)
  | bcd x =>
    refine outcomeWritesOnly_withIndexRange (n := 3) (fun h => ?_) { mem := fun h => absurd rfl (h x) }
    have := not_of_entry_eq_none h
    omega
  | storeRegs x =>
    obtain ⟨m, e, -⟩ := storeEach_regsUpTo s x
    rw [exec_storeRegs, e]
    refine outcomeWritesOnly_withIndexRange (fun h => ?_)
      { mem := fun _ h => absurd rfl (h x), I := fun _ _ _ h => absurd rfl (h x) }
    have := not_of_entry_eq_none h
    omega
  | loadRegs x =>
    obtain ⟨W, e, hW⟩ := loadEach_regsUpTo s x
    rw [exec_loadRegs, e]
    refine outcomeWritesOnly_withIndexRange (fun h => ?_)
      { V := fun r hr => (hW r).trans (if_neg hr), I := fun _ _ _ _ h => absurd rfl (h x) }
    have := not_of_entry_eq_none h
    omega
  | draw x y n =>
    rw [exec_draw]
    by_cases hrej : drawRejected s.V[x] s.V[y] = true
    · rw [if_pos hrej]
      exact outcomeWritesOnly_next {}
    · rw [if_neg hrej]
      refine outcomeWritesOnly_withIndexRange (fun h => ?_)
        { V := fun r hr => (State.setVF_get _ r _).trans (if_neg hr), disp := fun _ h => absurd rfl (h x y n) }
      rw [drawRejected_iff] at hrej
      have := not_of_entry_eq_none h
      omega

theorem exec_fault_unchanged {i : Instr} {s t : State} (e : exec i s = .next t) (h : faultOf i s = none) :
    t.fault = s.fault := by
  cases exec_cases i s with
  | raises f hf _ => exact absurd (hf.symm.trans h) (Option.some_ne_none f)
  | completes u _ hu q =>
    obtain rfl : u = t := Host.Outcome.next.inj (hu.symm.trans e)
    exact q.fault
  | illegal _ hr => exact nomatch hr.symm.trans e

/-- Settles O20: the frame, component by component, and the fault table for the fault record. -/
theorem eachComponentHasItsWriters : Obligations.EachComponentHasItsWriters := by
  intro i s t e
  have w := exec_writesOnly i s t e
  exact ⟨w.V, w.PC, exec_fault_unchanged e, w.mem, w.disp, w.stack, w.SP, w.DT, w.ST, w.prng, w.I, w.keys, w.prevKeys,
    w.pending, w.resets⟩

/-- Settles O21: VF changed, so it is one of the registers `i` may write. -/
theorem flagRegisterHasItsWriters : Obligations.FlagRegisterHasItsWriters := by
  intro i s t e hne
  have hw : mayWriteReg i 15 := by_contra fun h => hne ((exec_writesOnly i s t e).V 15 h)
  cases i with
  | orReg x y | andReg x y | xorReg x y | addReg x y | sub x y | shr x y | subn x y | shl x y =>
    exact .inl ⟨x, y, by simp⟩
  | draw x y n => exact .inl ⟨x, y, by simp⟩
  | loadImm x kk | addImm x kk | random x kk =>
    obtain rfl : 15 = x := hw
    exact .inr (.inl ⟨kk, by simp⟩)
  | copy x y =>
    obtain rfl : 15 = x := hw
    exact .inr (.inr (.inl ⟨y, rfl⟩))
  | readDelay x | waitKey x =>
    obtain rfl : 15 = x := hw
    simp
  | loadRegs x =>
    obtain rfl : 15 = x := le_antisymm hw (Fin.le_last x)
    simp
  | clear | ret | sys | jump | call | skipEqImm | skipNeImm | skipEqReg | skipNeReg | loadIndex | jumpOffset
  | skipKeyDown | skipKeyUp | writeDelay | writeSound | addIndex | fontAddr | bcd | storeRegs => exact hw.elim

end Sys2Proof.Machine
end

section
/-! The PRNG state is seen by Cxkk alone and the key snapshot by Fx0A alone (spec/10_state.md R36): running an instruction
commutes with replacing what it does not see. -/

namespace Sys2Proof.Machine

open Sys2Proof.Safety

/-- `s` with another PRNG state, another snapshot, both or neither. -/
def State.replaceUnseen (p : Option Byte) (ks : Option (Vector Bool 16)) (s : State) : State :=
  { s with prng := p.getD s.prng, prevKeys := ks.getD s.prevKeys }

section
variable {s : State} {p : Option Byte} {ks : Option (Vector Bool 16)}

theorem replaceUnseen_withIndexRange {n : Nat} {k k' : Result} (h : k' = onNext (State.replaceUnseen p ks) k) :
    withIndexRange (s.replaceUnseen p ks) n k' = onNext (State.replaceUnseen p ks) (withIndexRange s n k) := by
  unfold withIndexRange
  rw [apply_ite (onNext (State.replaceUnseen p ks)), h]
  rfl

theorem replaceUnseen_withKeyIndex {x : Fin 16} {k k' : Fin 16 → Result}
    (h : ∀ j, k' j = onNext (State.replaceUnseen p ks) (k j)) :
    withKeyIndex (s.replaceUnseen p ks) x k' = onNext (State.replaceUnseen p ks) (withKeyIndex s x k) := by
  unfold withKeyIndex
  rw [apply_dite (onNext (State.replaceUnseen p ks)), funext h]
  rfl

theorem replaceUnseen_withStackPointer {k k' : Fin 16 → Result}
    (h : ∀ j, k' j = onNext (State.replaceUnseen p ks) (k j)) :
    withStackPointer (s.replaceUnseen p ks) k' = onNext (State.replaceUnseen p ks) (withStackPointer s k) := by
  unfold withStackPointer
  rw [apply_dite (onNext (State.replaceUnseen p ks)), funext h]
  rfl

theorem replaceUnseen_skipIf (c : Bool) : skipIf c (s.replaceUnseen p ks) = (skipIf c s).replaceUnseen p ks := by
  cases c <;> rfl

theorem replaceUnseen_storeEach (rs : List (Fin 16)) :
    storeEach (s.replaceUnseen p ks) rs = (storeEach s rs).replaceUnseen p ks := by
  suffices h : ∀ t : State, rs.foldl (fun t i => t.writeByte (indexAddress s i.val) (regOperand s i))
      (t.replaceUnseen p ks) = (rs.foldl (fun t i => t.writeByte (indexAddress s i.val) (regOperand s i))
      t).replaceUnseen p ks from h s
  induction rs with
  | nil => exact fun _ => rfl
  | cons i rs ih => exact fun t => ih (t.writeByte (indexAddress s i.val) (regOperand s i))

theorem replaceUnseen_loadEach (rs : List (Fin 16)) :
    loadEach (s.replaceUnseen p ks) rs = (loadEach s rs).replaceUnseen p ks := by
  suffices h : ∀ t : State, rs.foldl (fun t i => t.setV i (s.readByte (indexAddress s i.val))) (t.replaceUnseen p ks) =
      (rs.foldl (fun t i => t.setV i (s.readByte (indexAddress s i.val))) t).replaceUnseen p ks from h s
  induction rs with
  | nil => exact fun _ => rfl
  | cons i rs ih => exact fun t => ih (t.setV i (s.readByte (indexAddress s i.val)))

end

/-- What an instruction does not see, it neither uses nor changes. -/
theorem exec_replaceUnseen (i : Instr) (s : State) (p : Option Byte) (ks : Option (Vector Bool 16))
    (hp : p = none ∨ ∀ x kk, i ≠ .random x kk) (hks : ks = none ∨ ∀ x, i ≠ .waitKey x) :
    exec i (s.replaceUnseen p ks) = onNext (State.replaceUnseen p ks) (exec i s) := by
  cases i with
  | clear | sys | jump | jumpOffset | loadImm | addImm | copy | orReg | andReg | xorReg | addReg | sub | shr | subn | shl
  | loadIndex | readDelay | writeDelay | writeSound | addIndex | fontAddr => rfl
  | skipEqImm | skipNeImm | skipEqReg | skipNeReg => exact congrArg Host.Outcome.next (replaceUnseen_skipIf _)
  | ret =>
    rw [exec_ret, exec_ret]
    refine replaceUnseen_withStackPointer fun j => ?_
    rw [apply_ite (onNext (State.replaceUnseen p ks))]
    rfl
  | call a =>
    rw [exec_call, exec_call]
    refine replaceUnseen_withStackPointer fun j => ?_
    rw [apply_ite (onNext (State.replaceUnseen p ks))]
    rfl
  | skipKeyDown x =>
    rw [exec_skipKeyDown, exec_skipKeyDown]
    exact replaceUnseen_withKeyIndex fun j => congrArg Host.Outcome.next (replaceUnseen_skipIf _)
  | skipKeyUp x =>
    rw [exec_skipKeyUp, exec_skipKeyUp]
    exact replaceUnseen_withKeyIndex fun j => congrArg Host.Outcome.next (replaceUnseen_skipIf _)
  | bcd x =>
    rw [exec_bcd, exec_bcd]
    exact replaceUnseen_withIndexRange rfl
  | storeRegs x =>
    rw [exec_storeRegs, exec_storeRegs, replaceUnseen_storeEach]
    exact replaceUnseen_withIndexRange rfl
  | loadRegs x =>
    rw [exec_loadRegs, exec_loadRegs, replaceUnseen_loadEach]
    exact replaceUnseen_withIndexRange rfl
  | draw x y n =>
    rw [exec_draw, exec_draw, apply_ite (onNext (State.replaceUnseen p ks))]
    exact if_congr Iff.rfl rfl (replaceUnseen_withIndexRange rfl)
  | random x kk =>
    obtain rfl : p = none := hp.resolve_right fun h => h x kk rfl
    rfl
  | waitKey x =>
    obtain rfl : ks = none := hks.resolve_right fun h => h x rfl
    have same : firstRisingEdge (s.replaceUnseen p none) = firstRisingEdge s := rfl
    cases h : firstRisingEdge s with
    | none =>
      rw [exec_waitKey_none x h, exec_waitKey_none x (same.trans h)]
      rfl
    | some k =>
      rw [exec_waitKey_edge x h, exec_waitKey_edge x (same.trans h)]
      rfl

/-- Settles O22: each clause replaces one of the two components. -/
theorem prngAndSnapshotAreSeenByOneInstruction : Obligations.PrngAndSnapshotAreSeenByOneInstruction :=
  ⟨fun i s p h => exec_replaceUnseen i s (some p) none (.inr h) (.inl rfl),
    fun i s ks h => exec_replaceUnseen i s none (some ks) (.inl rfl) (.inr h)⟩

end Sys2Proof.Machine
end

section
/-! The step: what a machine cycle and a command of the host can do, each said once (spec/30_encoding.md R90 to R92;
spec/60_exceptions.md R211, R215, R226), and the statements about a single step. -/

namespace Sys2Proof.Machine

open Sys2Proof.Safety

/-! ### The cycle -/

/-- The outcomes of a machine cycle. -/
inductive CycleCases (s : State) : Prop where
  | halted (f : Fault) (hf : s.fault = some f) (e : cycle s = .fault f)
  | outOfRange (live : s.fault = none) (hpc : 0xFFE < s.PC.toNat)
      (e : cycle s = .next (recordFault (.decodeError s.PC) s))
  | nop (live : s.fault = none) (hpc : s.PC.toNat ≤ 0xFFE) (e : cycle s = .next (preAdvance s))
  | raises (i : Instr) (f : Fault) (live : s.fault = none) (hf : faultOf i (preAdvance s) = some f)
      (e : cycle s = .next (recordFault f s))
  | completes (i : Instr) (t : State) (live : s.fault = none) (hpc : s.PC.toNat ≤ 0xFFE)
      (he : exec i (preAdvance s) = .next t) (e : cycle s = .next t) (q : Quiet (preAdvance s) t)
  | illegal (hsp : 15 < s.SP.toNat) (e : cycle s = .refused (.stackPointerIllegal s.SP))

theorem cycle_cases (s : State) : CycleCases s := by
  cases hf : s.fault with
  | some f => exact .halted f hf (cycle_halted hf)
  | none =>
    by_cases hpc : 0xFFE < s.PC.toNat
    · exact .outOfRange hf hpc (cycle_out_of_range hf hpc)
    · have hle : s.PC.toNat ≤ 0xFFE := by omega
      have e := cycle_fetch hf hle
      cases hd : decode (fetchWord s) with
      | nop => exact .nop hf hle (by rw [e, hd]; rfl)
      | instr i =>
        have e' : cycle s = exec i (preAdvance s) := by rw [e, hd]; rfl
        cases exec_cases i (preAdvance s) with
        | raises f hf' he => exact .raises i f hf hf' (by rw [e', he, raise_preAdvance])
        | completes t _ he q => exact .completes i t hf hle he (e'.trans he) q
        | illegal hsp he => exact .illegal hsp (e'.trans he)

/-- A cycle of a live block either raises a fault, and then changes nothing else, or leaves none recorded (R211). -/
theorem cycle_raises_or_completes {s t : State} (live : s.fault = none) (e : cycle s = .next t) :
    (∃ f, t = recordFault f s) ∨ t.fault = none := by
  cases cycle_cases s with
  | halted f hf _ => exact absurd (live.symm.trans hf) (Option.some_ne_none f).symm
  | outOfRange _ _ e' => exact .inl ⟨_, Host.Outcome.next.inj (e.symm.trans e')⟩
  | nop _ _ e' =>
    obtain rfl := Host.Outcome.next.inj (e.symm.trans e')
    exact .inr live
  | raises _ f _ _ e' => exact .inl ⟨f, Host.Outcome.next.inj (e.symm.trans e')⟩
  | completes _ u _ _ _ e' q =>
    obtain rfl := Host.Outcome.next.inj (e.symm.trans e')
    exact .inr (q.fault.trans live)
  | illegal _ e' => exact nomatch e.symm.trans e'

theorem cycle_next_live {s t : State} (e : cycle s = .next t) : s.fault = none := by
  cases hf : s.fault with
  | none => rfl
  | some f => exact nomatch e.symm.trans (cycle_halted hf)

/-- The keys, the snapshot and the host's commands are not a cycle's to change. -/
theorem cycle_keeps_host {s t : State} (e : cycle s = .next t) :
    t.keys = s.keys ∧ t.prevKeys = s.prevKeys ∧ t.pending = s.pending := by
  cases cycle_cases s with
  | halted _ _ e' => exact nomatch e.symm.trans e'
  | outOfRange _ _ e' | nop _ _ e' | raises _ _ _ _ e' =>
    obtain rfl := Host.Outcome.next.inj (e.symm.trans e')
    exact ⟨rfl, rfl, rfl⟩
  | completes _ u _ _ _ e' q =>
    obtain rfl := Host.Outcome.next.inj (e.symm.trans e')
    exact ⟨q.keys, q.prevKeys, q.pending⟩
  | illegal _ e' => exact nomatch e.symm.trans e'

theorem cycle_next_or_halted {s : State} (hsp : s.SP.toNat ≤ 15) :
    (∃ t, cycle s = .next t) ∨ ∃ f, s.fault = some f ∧ cycle s = .fault f := by
  cases cycle_cases s with
  | halted f hf e => exact .inr ⟨f, hf, e⟩
  | outOfRange _ _ e | nop _ _ e | raises _ _ _ _ e | completes _ _ _ _ _ e _ => exact .inl ⟨_, e⟩
  | illegal hlt _ => omega

/-! ### STEP as a command, and its answer -/

theorem stepCommand_of_next {s t : State} (e : cycle s = .next t) : stepCommand s = .next t := by
  rw [stepCommand, e]

theorem stepCommand_of_halted {s : State} {f : Fault} (h : s.fault = some f) : stepCommand s = .next s := by
  rw [stepCommand, cycle_halted h]

theorem step_of_pending_step {s : State} {rest : List Command} (h : s.pending = .step :: rest) :
    step s = stepCommand (s.setPending rest) := step_of_command h

theorem stepResponse_of_fault {s t : State} {f : Fault} (e : cycle s = .next t) (h : t.fault = some f) :
    stepResponse s = .err f := by
  simp [stepResponse, e, h]

theorem stepResponse_of_no_fault {s t : State} (e : cycle s = .next t) (h : t.fault = none) : stepResponse s = .ok := by
  simp [stepResponse, e, h]

theorem stepResponse_of_halted {s : State} {f : Fault} (h : s.fault = some f) : stepResponse s = .err f := by
  rw [stepResponse, cycle_halted h]

/-- A cycle of a live block with PC in range, from the verdict on the two bytes at PC. -/
theorem cycle_of_decode {s : State} {d : Decoded} (live : s.fault = none) (hpc : s.PC.toNat ≤ 0xFFE)
    (hd : decode (wordOfBytes (s.readByte s.PC.toNat) (s.readByte (s.PC.toNat + 1))) = d) :
    cycle s = execDecoded d (preAdvance s) := by
  rw [cycle_fetch live hpc, fetchWord, hd]

/-- Settles O6: the cycle is the decoded instruction's, and a pending STEP is that cycle with the STEP used up. -/
theorem stepRunsDecodedInstruction : Obligations.StepRunsDecodedInstruction := by
  intro s i live hpc hd
  refine ⟨fun hp => ?_, fun rest hp t he => ?_⟩
  · exact (step_of_no_command hp).trans (cycle_of_decode live hpc hd)
  · have e : cycle (s.setPending rest) = .next t := (cycle_of_decode (s := s.setPending rest) live hpc hd).trans he
    exact (step_of_pending_step hp).trans (stepCommand_of_next e)

/-- Settles O7: the same for the verdict NOP, whose meaning is the identity. -/
theorem nopStepOnlyAdvancesPc : Obligations.NopStepOnlyAdvancesPc := by
  intro s live hpc hd
  refine ⟨fun hp => ?_, fun rest hp => ?_⟩
  · exact (step_of_no_command hp).trans (cycle_of_decode live hpc hd)
  · exact (step_of_pending_step hp).trans (stepCommand_of_next (cycle_of_decode (s := s.setPending rest) live hpc hd))

/-- Settles O8: the cycle's test of PC comes before the fetch. -/
theorem stepOutOfFetchRangeRaisesDecodeError : Obligations.StepOutOfFetchRangeRaisesDecodeError := by
  intro s live hpc
  refine ⟨fun hp => ?_, fun rest hp => ?_, ?_⟩
  · exact (step_of_no_command hp).trans (cycle_out_of_range live hpc)
  · exact (step_of_pending_step hp).trans (stepCommand_of_next (cycle_out_of_range (s := s.setPending rest) live hpc))
  · exact stepResponse_of_fault (cycle_out_of_range live hpc) rfl

/-- Settles O9: the cycle of a halted block is its fault, which STEP answers and otherwise ignores. -/
theorem haltedStepChangesNothing : Obligations.HaltedStepChangesNothing := by
  intro s f rest hf hp
  exact ⟨(step_of_pending_step hp).trans (stepCommand_of_halted (s := s.setPending rest) hf), stepResponse_of_halted hf⟩

/-- Settles O10: with no command left the step is that cycle. -/
theorem haltedRunStopsWithRecordedFault : Obligations.HaltedRunStopsWithRecordedFault := by
  intro s f hf hp
  exact (step_of_no_command hp).trans (cycle_halted hf)

/-- Settles O11: a cycle that leaves a fault recorded raised it. -/
theorem faultingStepIsPrecise : Obligations.FaultingStepIsPrecise := by
  intro s t live hp hstep
  have e : cycle s = .next t := (step_of_no_command hp).symm.trans hstep
  refine ⟨fun f hf => ⟨?_, stepResponse_of_fault e hf, ?_⟩, fun hn => stepResponse_of_no_fault e hn⟩
  · rcases cycle_raises_or_completes live e with ⟨g, rfl⟩ | hn
    · obtain rfl : g = f := Option.some.inj hf
      rfl
    · exact absurd (hf.symm.trans hn) (Option.some_ne_none f)
  · rw [State.halted, hf]
    rfl

/-- Settles O12: the three outcomes of an instruction, of which a legal SP leaves two. -/
theorem faultsAreExactlyTheTable : Obligations.FaultsAreExactlyTheTable := by
  refine ⟨fun i s f hsp hf => ?_, fun i s hsp hn => ?_, fun v b => ⟨rfl, rfl, rfl, rfl, rfl⟩⟩
  · cases exec_cases i s with
    | raises g hg e =>
      obtain rfl : g = f := Option.some.inj (hg.symm.trans hf)
      exact e
    | completes _ hn _ _ => exact absurd (hf.symm.trans hn) (Option.some_ne_none f)
    | illegal hlt _ => omega
  · cases exec_cases i s with
    | raises g hg _ => exact absurd (hg.symm.trans hn) (Option.some_ne_none g)
    | completes t _ e q => exact ⟨t, e, q.fault⟩
    | illegal hlt _ => omega

/-! ### The host's commands -/

/-- The state after a command of the host; for STEP, which is a cycle, the state it is issued in. -/
def hostEffect (c : Command) (s : State) : State :=
  match c with
  | .reset => resetCommand s
  | .load image => loadCommand image s
  | .tick => tickCommand s
  | .setKey k down => setKeyCommand k down s
  | .step | .display | .sound => s

theorem runCommand_host {c : Command} (hc : c ≠ .step) (s : State) : runCommand c s = .next (hostEffect c s) := by
  cases c with
  | step => exact absurd rfl hc
  | reset | load | tick | setKey | display | sound => rfl

theorem hostEffect_pending (c : Command) (s : State) : (hostEffect c s).pending = s.pending := by
  cases c with
  | load image =>
    simp only [hostEffect, loadCommand]
    split <;> rfl
  | reset | step | tick | setKey | display | sound => rfl

/-- How a step comes to a next state: a cycle, with the STEP used up where one was pending; a STEP of a halted block, used
up; or another command. -/
inductive StepCases (s t : State) : Prop where
  | cycles (hp : s.pending = []) (e : cycle s = .next t)
  | steps (rest : List Command) (hp : s.pending = .step :: rest) (e : cycle (s.setPending rest) = .next t)
  | halted (rest : List Command) (f : Fault) (hp : s.pending = .step :: rest) (hf : s.fault = some f)
      (ht : t = s.setPending rest)
  | host (c : Command) (rest : List Command) (hp : s.pending = c :: rest) (ht : t = hostEffect c (s.setPending rest))

theorem step_cases {s t : State} (h : step s = .next t) : StepCases s t := by
  cases hp : s.pending with
  | nil => exact .cycles hp ((step_of_no_command hp).symm.trans h)
  | cons c rest =>
    by_cases hc : c = .step
    · subst hc
      rw [step_of_pending_step hp] at h
      cases hf : s.fault with
      | some f =>
        rw [stepCommand_of_halted (s := s.setPending rest) hf] at h
        exact .halted rest f hp hf (Host.Outcome.next.inj h).symm
      | none =>
        refine .steps rest hp ?_
        cases cycle_cases (s.setPending rest) with
        | halted f hf' _ => exact absurd (hf'.symm.trans hf) (Option.some_ne_none f)
        | outOfRange _ _ e | nop _ _ e | raises _ _ _ _ e | completes _ _ _ _ _ e _ =>
          rwa [stepCommand_of_next e, ← e] at h
        | illegal _ e =>
          rw [stepCommand, e] at h
          cases h
    · have e := (runCommand_host hc (s.setPending rest)).symm.trans ((step_of_command hp).symm.trans h)
      exact .host c rest hp (Host.Outcome.next.inj e).symm

/-- Settles O13: with a legal SP a cycle is a next state or a halted block's fault; every other command answers a next
state. -/
theorem stepNeverRefusesWithLegalSp : Obligations.StepNeverRefusesWithLegalSp := by
  intro s hsp
  cases hp : s.pending with
  | nil =>
    rw [step_of_no_command hp]
    exact (cycle_next_or_halted hsp).imp_right fun ⟨f, hf, e⟩ => ⟨f, hf, rfl, e⟩
  | cons c rest =>
    refine .inl ?_
    by_cases hc : c = .step
    · subst hc
      rw [step_of_pending_step hp]
      rcases cycle_next_or_halted (s := s.setPending rest) hsp with ⟨t, e⟩ | ⟨f, hf, -⟩
      · exact ⟨t, stepCommand_of_next e⟩
      · exact ⟨_, stepCommand_of_halted hf⟩
    · exact ⟨_, (step_of_command hp).trans (runCommand_host hc _)⟩

/-- Settles O53: what is left of the commands is a fact about the cycle and about each command. -/
theorem commandsRunInOrderAndAreUsedUp : Obligations.CommandsRunInOrderAndAreUsedUp := by
  intro s
  refine ⟨fun c rest hp => step_of_command hp, fun hp => step_of_no_command hp, fun t h => ?_⟩
  cases step_cases h with
  | cycles hp e => rw [(cycle_keeps_host e).2.2, hp, List.tail_nil]
  | steps rest hp e => rw [(cycle_keeps_host e).2.2, hp, List.tail_cons, State.setPending_pending]
  | halted rest f hp hf ht => rw [ht, hp, List.tail_cons, State.setPending_pending]
  | host c rest hp ht => rw [ht, hostEffect_pending, hp, List.tail_cons, State.setPending_pending]

theorem imageTooLarge_iff (image : List Byte) : imageTooLarge image = true ↔ 3584 < image.length := decide_eq_true_iff

theorem loadCommand_of_tooLarge {image : List Byte} (h : 3584 < image.length) (s : State) : loadCommand image s = s :=
  if_pos ((imageTooLarge_iff image).2 h)

theorem loadCommand_of_fits {image : List Byte} (h : image.length ≤ 3584) (s : State) :
    loadCommand image s = (resetCommand s).setMem ((resetCommand s).mem.writeBytes 0x200 image) :=
  if_neg (mt (imageTooLarge_iff image).1 (Nat.not_lt.2 h))

theorem loadCommand_cases (image : List Byte) (s : State) :
    (3584 < image.length ∧ loadCommand image s = s) ∨
    (image.length ≤ 3584 ∧
      loadCommand image s = (resetCommand s).setMem ((resetCommand s).mem.writeBytes 0x200 image)) :=
  (Nat.lt_or_ge 3584 image.length).imp (fun h => ⟨h, loadCommand_of_tooLarge h s⟩) fun h => ⟨h, loadCommand_of_fits h s⟩

theorem halted_iff (s : State) : s.halted = true ↔ s.fault ≠ none := Option.isSome_iff_ne_none

/-- Settles O18: a cycle alone records a fault, and runs only while none is recorded; RESET and a LOAD that fits clear it. -/
theorem faultSetByStepClearedByResetOrLoad : Obligations.FaultSetByStepClearedByResetOrLoad := by
  intro s t h
  refine ⟨halted_iff s, ?_⟩
  cases step_cases h with
  | cycles hp e =>
    have live := cycle_next_live e
    exact ⟨fun _ _ => .inl hp, fun f hf => absurd (hf.symm.trans live) (Option.some_ne_none f)⟩
  | steps rest hp e =>
    have live := cycle_next_live (s := s.setPending rest) e
    exact ⟨fun _ _ => .inr ⟨rest, hp⟩, fun f hf => absurd (hf.symm.trans live) (Option.some_ne_none f)⟩
  | halted rest f hp hf ht =>
    subst ht
    exact ⟨fun _ _ => .inr ⟨rest, hp⟩, fun g hg => .inl hg⟩
  | host c rest hp ht =>
    subst ht
    cases c with
    | reset => exact ⟨fun _ hne => absurd rfl hne, fun _ _ => .inr ⟨rfl, .inl ⟨rest, hp⟩⟩⟩
    | load image =>
      simp only [hostEffect]
      rcases loadCommand_cases image (s.setPending rest) with ⟨-, e⟩ | ⟨hlen, e⟩ <;> rw [e]
      · exact ⟨fun live hne => absurd live hne, fun _ hf => .inl hf⟩
      · exact ⟨fun _ hne => absurd rfl hne, fun _ _ => .inr ⟨rfl, .inr ⟨image, rest, hp, hlen⟩⟩⟩
    | step | tick | setKey | display | sound => exact ⟨fun live hne => absurd live hne, fun _ hf => .inl hf⟩

/-- Settles O19: a cycle changes neither, and each command is looked at once. -/
theorem keysAndSnapshotChangeOnlyByHost : Obligations.KeysAndSnapshotChangeOnlyByHost := by
  intro s t h
  cases step_cases h with
  | cycles hp e | steps rest hp e =>
    obtain ⟨hkeys, hprev, -⟩ := cycle_keeps_host e
    exact ⟨.inl hkeys, .inl hprev⟩
  | halted rest f hp hf ht =>
    subst ht
    exact ⟨.inl rfl, .inl rfl⟩
  | host c rest hp ht =>
    subst ht
    cases c with
    | reset => exact ⟨.inr (.inr (.inl ⟨rest, hp⟩)), .inr (.inr (.inl ⟨rest, hp⟩))⟩
    | load image => exact ⟨.inr (.inr (.inr ⟨image, rest, hp⟩)), .inr (.inr (.inr ⟨image, rest, hp⟩))⟩
    | tick => exact ⟨.inl rfl, .inr (.inl ⟨rest, hp⟩)⟩
    | setKey k down => exact ⟨.inr (.inl ⟨k, down, rest, hp⟩), .inl rfl⟩
    | step | display | sound => exact ⟨.inl rfl, .inl rfl⟩

end Sys2Proof.Machine
end

section
/-! The invariants of a run: what it takes for a predicate to hold after every step, the legal form of the state, and that a
recorded fault stays true of it (spec/10_state.md R27, R28; spec/60_exceptions.md R210, R211). -/

namespace Sys2Proof.Machine

open Sys2Proof.Safety

/-- A predicate that does not look at the commands to come, is kept by a cycle and by each command of the host, is kept by
every step. -/
theorem step_invariant {P : State → Prop} (hpending : ∀ s cs, P s → P (s.setPending cs))
    (hcycle : ∀ s t, P s → cycle s = .next t → P t) (hhost : ∀ c s, P s → P (hostEffect c s)) {s t : State} (h : P s)
    (e : step s = .next t) : P t := by
  cases step_cases e with
  | cycles _ e' => exact hcycle s t h e'
  | steps rest _ e' => exact hcycle _ t (hpending s rest h) e'
  | halted rest _ _ _ ht => exact ht ▸ hpending s rest h
  | host c rest _ ht => exact ht ▸ hhost c _ (hpending s rest h)

/-! ### The legal form -/

/-- The legal form is about memory, SP, the slots and PC. -/
theorem legal_of_unchanged {s t : State} (hs : Legal s) (hmem : t.mem.wf = true) (hSP : t.SP = s.SP)
    (hstack : t.stack = s.stack) (hPC : t.PC.toNat ≤ 0x10FE) : Legal t where
  mem := hmem
  sp := hSP ▸ hs.sp
  slot0 := hstack ▸ hs.slot0
  slots := hstack ▸ hs.slots
  pc := hPC

/-- The legal form of an outcome: it is about the next state, where there is one. -/
def OutcomeLegal (o : Result) : Prop := ∀ t, o = .next t → Legal t

theorem outcomeLegal_next {t : State} (h : Legal t) : OutcomeLegal (.next t) := by
  rintro _ ⟨⟩
  exact h

theorem pc_sub_two_toNat {v : Word} (h : 2 ≤ v.toNat) : (v - 2#16).toNat = v.toNat - 2 :=
  BitVec.toNat_sub_of_le h

theorem pc_add_two_toNat {v : Word} (h : v.toNat ≤ 0x10FE) : (v + 2#16).toNat = v.toNat + 2 :=
  BitVec.toNat_add_of_lt (show v.toNat + 2 < 65536 by omega)

/-! The state an instruction is given: legal, and PC past the instruction (R90). -/

section
variable {s : State} (hs : Legal s)
include hs

theorem legal_skipIf (c : Bool) (hhi : s.PC.toNat ≤ 0x1000) : Legal (skipIf c s) := by
  cases c with
  | false => exact hs
  | true =>
    refine legal_of_unchanged hs hs.mem rfl rfl ?_
    have := pc_add_two_toNat hs.pc
    simp only [skipIf_PC, if_true]
    omega

variable (hlo : 2 ≤ s.PC.toNat)
include hlo

theorem legal_backToInstr : Legal (s.setPC (s.PC - 2#16)) := by
  have hpc := hs.pc
  refine legal_of_unchanged hs hs.mem rfl rfl ?_
  rw [State.setPC_PC, pc_sub_two_toNat hlo]
  omega

theorem outcomeLegal_raise (f : Fault) : OutcomeLegal (raise f s) :=
  outcomeLegal_next (legal_of_unchanged (legal_backToInstr hs hlo) hs.mem rfl rfl (legal_backToInstr hs hlo).pc)

theorem outcomeLegal_withIndexRange {n : Nat} {k : Result}
    (h : n = 0 ∨ s.I.toNat + n ≤ 0x1000 → OutcomeLegal k) : OutcomeLegal (withIndexRange s n k) := by
  rcases withIndexRange_cases s n k with ⟨hn, e⟩ | ⟨-, -, e⟩ <;> rw [e]
  · exact h hn
  · exact outcomeLegal_raise hs hlo _

theorem outcomeLegal_withKeyIndex {x : Fin 16} {k : Fin 16 → Result} (h : ∀ j, OutcomeLegal (k j)) :
    OutcomeLegal (withKeyIndex s x k) := by
  rcases withKeyIndex_cases s x k with ⟨j, -, e⟩ | ⟨-, e⟩ <;> rw [e]
  · exact h j
  · exact outcomeLegal_raise hs hlo _

/-- A return goes to a slot's address and frees the slot. -/
theorem outcomeLegal_ret : OutcomeLegal (exec .ret s) := by
  have hsp := hs.sp
  by_cases h0 : s.SP.toNat = 0
  · rw [exec_ret_empty h0]
    exact outcomeLegal_raise hs hlo _
  · have hlt : s.SP.toNat < 16 := by omega
    rw [exec_ret_pops (j := ⟨s.SP.toNat, hlt⟩) rfl fun e => h0 (congrArg Fin.val e)]
    have hslot := hs.slots ⟨s.SP.toNat, hlt⟩
    refine outcomeLegal_next ⟨hs.mem, ?_, hs.slot0, hs.slots, ?_⟩
    · rw [State.setSP_SP, byte_sub_toNat]
      change (s.SP.toNat + 256 - 1) % 256 ≤ 15
      omega
    · rw [State.setSP_PC, State.setPC_PC]
      omega

variable (hhi : s.PC.toNat ≤ 0x1000)
include hhi

/-- A call writes a slot above slot 0, and the address it pushes is at most 0x1000. -/
theorem outcomeLegal_call (a : BitVec 12) : OutcomeLegal (exec (.call a) s) := by
  have hsp := hs.sp
  by_cases h15 : s.SP.toNat = 15
  · rw [exec_call_full a h15]
    exact outcomeLegal_raise hs hlo _
  · have hlt : s.SP.toNat < 15 := by omega
    rw [exec_call_pushes a hlt]
    have hslot : ∀ j : Fin 16, ((s.setSP (s.SP + 1#8)).setStack ⟨s.SP.toNat + 1, by omega⟩ s.PC).stack[j] =
        if j = ⟨s.SP.toNat + 1, by omega⟩ then s.PC else s.stack[j] := fun j => State.setStack_get _ _ j _
    refine outcomeLegal_next ⟨hs.mem, ?_, ?_, fun j => ?_, ?_⟩
    · have := sp_add_one_toNat hlt
      simp only [State.setPC_SP, State.setStack_SP, State.setSP_SP]
      omega
    · rw [State.setPC_stack, hslot, if_neg fun e => Nat.succ_ne_zero _ (congrArg Fin.val e).symm, hs.slot0]
    · have hj := hs.slots j
      rw [State.setPC_stack, hslot]
      split
      · exact hhi
      · exact hj
    · have := a.isLt
      rw [State.setPC_PC, addressOperand_toNat]
      omega

theorem exec_legal (i : Instr) : OutcomeLegal (exec i s) := by
  cases i with
  | clear | loadImm | addImm | copy | orReg | andReg | xorReg | addReg | sub | shr | subn | shl | loadIndex | random
  | readDelay | writeDelay | writeSound | addIndex | fontAddr =>
    exact outcomeLegal_next (legal_of_unchanged hs hs.mem rfl rfl hs.pc)
  | sys a | jump a =>
    refine outcomeLegal_next (legal_of_unchanged hs hs.mem rfl rfl ?_)
    have := a.isLt
    rw [State.setPC_PC, addressOperand_toNat]
    omega
  | jumpOffset a =>
    refine outcomeLegal_next (legal_of_unchanged hs hs.mem rfl rfl ?_)
    have := a.isLt
    have := s.V[(0 : Fin 16)].isLt
    rw [State.setPC_PC, offsetOperand_toNat]
    omega
  | skipEqImm | skipNeImm | skipEqReg | skipNeReg => exact outcomeLegal_next (legal_skipIf hs _ hhi)
  | skipKeyDown x =>
    rw [exec_skipKeyDown]
    exact outcomeLegal_withKeyIndex hs hlo fun j => outcomeLegal_next (legal_skipIf hs _ hhi)
  | skipKeyUp x =>
    rw [exec_skipKeyUp]
    exact outcomeLegal_withKeyIndex hs hlo fun j => outcomeLegal_next (legal_skipIf hs _ hhi)
  | ret => exact outcomeLegal_ret hs hlo
  | call a => exact outcomeLegal_call hs hlo hhi a
  | waitKey x =>
    cases h : firstRisingEdge s with
    | none =>
      rw [exec_waitKey_none x h]
      exact outcomeLegal_next (legal_backToInstr hs hlo)
    | some k =>
      rw [exec_waitKey_edge x h]
      exact outcomeLegal_next (legal_of_unchanged hs hs.mem rfl rfl hs.pc)
  | bcd x =>
    rw [exec_bcd]
    refine outcomeLegal_withIndexRange hs hlo fun hn =>
      outcomeLegal_next (legal_of_unchanged hs (Memory.wf_writeBytes _ ?_ hs.mem) rfl rfl hs.pc)
    rw [length_bcdDigits, indexAddress]
    omega
  | storeRegs x =>
    rw [exec_storeRegs]
    refine outcomeLegal_withIndexRange hs hlo fun hn => ?_
    have hwf : (storeEach s (regsUpTo x)).mem.wf = true := storeEach_wf s _ hs.mem fun r hr => by
      have : r.val ≤ x.val := (mem_regsUpTo x r).1 hr
      omega
    obtain ⟨m, e, -⟩ := storeEach_regsUpTo s x
    rw [e] at hwf ⊢
    exact outcomeLegal_next (legal_of_unchanged hs hwf rfl rfl hs.pc)
  | loadRegs x =>
    rw [exec_loadRegs]
    refine outcomeLegal_withIndexRange hs hlo fun hn => ?_
    obtain ⟨W, e, -⟩ := loadEach_regsUpTo s x
    rw [e]
    exact outcomeLegal_next (legal_of_unchanged hs hs.mem rfl rfl hs.pc)
  | draw x y n =>
    rw [exec_draw]
    split
    · exact outcomeLegal_next hs
    · exact outcomeLegal_withIndexRange hs hlo fun _ =>
        outcomeLegal_next (legal_of_unchanged hs hs.mem rfl rfl hs.pc)

end

theorem legal_setPending {s : State} (cs : List Command) (hs : Legal s) : Legal (s.setPending cs) :=
  legal_of_unchanged hs hs.mem rfl rfl hs.pc

theorem legal_recordFault {s : State} (f : Fault) (hs : Legal s) : Legal (recordFault f s) :=
  legal_of_unchanged hs hs.mem rfl rfl hs.pc

theorem legal_preAdvance {s : State} (hs : Legal s) (hpc : s.PC.toNat ≤ 0xFFE) : Legal (preAdvance s) := by
  refine legal_of_unchanged hs hs.mem rfl rfl ?_
  rw [preAdvance_PC, pc_add_two_toNat hs.pc]
  omega

theorem cycle_legal {s t : State} (hs : Legal s) (e : cycle s = .next t) : Legal t := by
  cases cycle_cases s with
  | halted _ _ e' => exact nomatch e.symm.trans e'
  | outOfRange _ _ e' | raises _ _ _ _ e' =>
    obtain rfl := Host.Outcome.next.inj (e.symm.trans e')
    exact legal_recordFault _ hs
  | nop _ hpc e' =>
    obtain rfl := Host.Outcome.next.inj (e.symm.trans e')
    exact legal_preAdvance hs hpc
  | completes i u _ hpc he e' _ =>
    obtain rfl := Host.Outcome.next.inj (e.symm.trans e')
    have hadv : (preAdvance s).PC.toNat = s.PC.toNat + 2 := pc_add_two_toNat hs.pc
    exact exec_legal (legal_preAdvance hs hpc) (by omega) (by omega) i t he
  | illegal _ e' => exact nomatch e.symm.trans e'

theorem reset_legal : Legal State.reset :=
  ⟨Memory.wf_reset, by decide, by decide, by decide, by decide⟩

theorem legal_resetCommand (s : State) : Legal (resetCommand s) :=
  legal_of_unchanged reset_legal Memory.wf_reset rfl rfl reset_legal.pc

theorem hostEffect_legal (c : Command) {s : State} (hs : Legal s) : Legal (hostEffect c s) := by
  cases c with
  | reset => exact legal_resetCommand s
  | load image =>
    change Legal (loadCommand image s)
    rcases loadCommand_cases image s with ⟨-, e⟩ | ⟨hlen, e⟩ <;> rw [e]
    · exact hs
    · have ht := legal_resetCommand s
      exact legal_of_unchanged ht (Memory.wf_writeBytes image (by omega) ht.mem) rfl rfl ht.pc
  | step | tick | setKey | display | sound => exact legal_of_unchanged hs hs.mem rfl rfl hs.pc

/-- Settles O14: the legal form is kept by the cycle and by each command. -/
theorem stepKeepsLegal : Obligations.StepKeepsLegal := fun _ _ hs e =>
  step_invariant (fun _ cs h => legal_setPending cs h) (fun _ _ h e => cycle_legal h e)
    (fun c _ h => hostEffect_legal c h) hs e

theorem reachable_legal {s : State} (h : Reachable s) : Legal s := by
  induction h with
  | reset cs => exact legal_setPending cs reset_legal
  | step _ e ih => exact stepKeepsLegal _ _ ih e

/-- Settles O17: every reachable state is legal, and with a legal SP a step is not refused. -/
theorem reachableStatesStayInBounds : Obligations.ReachableStatesStayInBounds := by
  intro s h
  have hs := reachable_legal h
  refine ⟨hs.sp, hs.slot0, hs.pc, hs.mem, fun r hr => ?_⟩
  rcases stepNeverRefusesWithLegalSp s hs.sp with ⟨t, e⟩ | ⟨f, -, -, e⟩ <;> exact nomatch e.symm.trans hr

/-! ### The fault record -/

theorem faultTruthful_of_no_fault {s : State} (h : s.fault = none) : faultTruthful s := by
  unfold faultTruthful
  rw [h]
  trivial

/-- Settles O15: every bound is a number of `State.reset`, and it records no fault. -/
theorem resetIsLegal : Obligations.ResetIsLegal := ⟨reset_legal, faultTruthful_of_no_fault rfl⟩

/-- Each entry of the fault table records what its condition says of the state before the instruction. -/
theorem faultTruthful_of_faultOf {i : Instr} {s : State} {f : Fault} (h : faultOf i (preAdvance s) = some f) :
    faultTruthful (recordFault f s) := by
  have hpc : (preAdvance s).PC - 2#16 = s.PC := instrAddress_preAdvance s
  cases i with
  | call a =>
    obtain ⟨hsp, ⟨⟩⟩ := Option.ite_none_right_eq_some.1 h
    exact ⟨hpc, BitVec.eq_of_toNat_eq hsp⟩
  | ret =>
    obtain ⟨hsp, ⟨⟩⟩ := Option.ite_none_right_eq_some.1 h
    exact ⟨hpc, BitVec.eq_of_toNat_eq hsp⟩
  | draw x y n =>
    obtain ⟨⟨-, -, -, hI⟩, ⟨⟩⟩ := Option.ite_none_right_eq_some.1 h
    rw [preAdvance_I] at hI
    exact ⟨rfl, show s.I.toNat > 0xFF0 by omega⟩
  | bcd x =>
    obtain ⟨hI, ⟨⟩⟩ := Option.ite_none_right_eq_some.1 h
    rw [preAdvance_I] at hI
    exact ⟨rfl, show s.I.toNat > 0xFF0 by omega⟩
  | storeRegs x | loadRegs x =>
    obtain ⟨hI, ⟨⟩⟩ := Option.ite_none_right_eq_some.1 h
    rw [preAdvance_I] at hI
    exact ⟨rfl, show s.I.toNat > 0xFF0 by omega⟩
  | skipKeyDown x | skipKeyUp x =>
    obtain ⟨hV, ⟨⟩⟩ := Option.ite_none_right_eq_some.1 h
    exact hV
  | clear | sys | jump | skipEqImm | skipNeImm | skipEqReg | loadImm | addImm | copy | orReg | andReg | xorReg | addReg
  | sub | shr | subn | shl | skipNeReg | loadIndex | jumpOffset | random | readDelay | waitKey | writeDelay | writeSound
  | addIndex | fontAddr => exact nomatch h

theorem cycle_faultTruthful {s t : State} (e : cycle s = .next t) : faultTruthful t := by
  cases cycle_cases s with
  | halted _ _ e' => exact nomatch e.symm.trans e'
  | outOfRange _ hpc e' =>
    obtain rfl := Host.Outcome.next.inj (e.symm.trans e')
    exact ⟨rfl, hpc⟩
  | nop live _ e' =>
    obtain rfl := Host.Outcome.next.inj (e.symm.trans e')
    exact faultTruthful_of_no_fault live
  | raises _ _ _ hf e' =>
    obtain rfl := Host.Outcome.next.inj (e.symm.trans e')
    exact faultTruthful_of_faultOf hf
  | completes _ _ live _ _ e' q =>
    obtain rfl := Host.Outcome.next.inj (e.symm.trans e')
    exact faultTruthful_of_no_fault (q.fault.trans live)
  | illegal _ e' => exact nomatch e.symm.trans e'

/-- RESET and a LOAD that fits clear the record; no other command touches what it is about. -/
theorem hostEffect_faultTruthful (c : Command) {s : State} (h : faultTruthful s) : faultTruthful (hostEffect c s) := by
  cases c with
  | reset => exact faultTruthful_of_no_fault rfl
  | load image =>
    change faultTruthful (loadCommand image s)
    rcases loadCommand_cases image s with ⟨-, e⟩ | ⟨-, e⟩ <;> rw [e]
    · exact h
    · exact faultTruthful_of_no_fault rfl
  | step | tick | setKey | display | sound => exact h

/-- Settles O16: the record is true when a cycle sets it, and stays true while the block is halted. -/
theorem stepKeepsFaultTruthful : Obligations.StepKeepsFaultTruthful := fun _ _ hs e =>
  step_invariant (fun _ _ h => h) (fun _ _ _ e => cycle_faultTruthful e) (fun c _ h => hostEffect_faultTruthful c h) hs e

end Sys2Proof.Machine
end

section
/-! The canonical form of memory determines the data (spec/20_memory.md R50; the model's log entry 15). -/

namespace Sys2Proof.Machine

theorem Memory.wfFrom_cons_iff {lo a : Nat} {v : Byte} {m : Memory} : Memory.wfFrom lo ((a, v) :: m) = true ↔
    lo ≤ a ∧ a < 4096 ∧ v ≠ Memory.unlisted a ∧ Memory.wfFrom (a + 1) m = true := by
  simp [Memory.wfFrom, and_assoc]

theorem Memory.read_cons_self (a : Nat) (v : Byte) (m : Memory) : Memory.read ((a, v) :: m) a = v := if_pos rfl

theorem Memory.read_cons_of_ne {a b : Nat} (v : Byte) (m : Memory) (h : b ≠ a) : Memory.read ((a, v) :: m) b = m.read b :=
  if_neg h

/-- Below the first listed address a memory reads as unlisted. -/
theorem Memory.read_below : ∀ {m : Memory} {lo b : Nat}, Memory.wfFrom lo m = true → b < lo → m.read b = Memory.unlisted b
  | [], _, _, _, _ => rfl
  | (a, v) :: m, lo, b, h, hb => by
    obtain ⟨hlo, -, -, htail⟩ := Memory.wfFrom_cons_iff.1 h
    rw [Memory.read_cons_of_ne v m (by omega)]
    exact Memory.read_below htail (by omega)

/-- A listed first cell shows: a memory that lists nothing up to there reads another byte. -/
theorem Memory.read_head_ne {lo a : Nat} {v : Byte} {m m' : Memory} (h : Memory.wfFrom lo ((a, v) :: m) = true)
    (h' : Memory.wfFrom (a + 1) m' = true) : Memory.read ((a, v) :: m) a ≠ m'.read a := by
  obtain ⟨-, -, hv, -⟩ := Memory.wfFrom_cons_iff.1 h
  rwa [Memory.read_cons_self, Memory.read_below h' (Nat.lt_succ_self a)]

theorem Memory.eq_of_wfFrom_of_read_eq : ∀ {m m' : Memory} {lo lo' : Nat}, Memory.wfFrom lo m = true →
    Memory.wfFrom lo' m' = true → (∀ a < 4096, m.read a = m'.read a) → m = m'
  | [], [], _, _, _, _, _ => rfl
  | (a, v) :: m, [], _, _, h, _, hread => by
    obtain ⟨-, ha, -, -⟩ := Memory.wfFrom_cons_iff.1 h
    exact absurd (hread a ha) (Memory.read_head_ne h rfl)
  | [], (b, w) :: m', _, _, _, h', hread => by
    obtain ⟨-, hb, -, -⟩ := Memory.wfFrom_cons_iff.1 h'
    exact absurd (hread b hb).symm (Memory.read_head_ne h' rfl)
  | (a, v) :: m, (b, w) :: m', lo, lo', h, h', hread => by
    obtain ⟨-, ha, hv, htail⟩ := Memory.wfFrom_cons_iff.1 h
    obtain ⟨-, hb, hw, htail'⟩ := Memory.wfFrom_cons_iff.1 h'
    rcases Nat.lt_trichotomy a b with hab | rfl | hba
    · exact absurd (hread a ha) (Memory.read_head_ne h (Memory.wfFrom_cons_iff.2 ⟨hab, hb, hw, htail'⟩))
    · obtain rfl : v = w := (Memory.read_cons_self a v m).symm.trans ((hread a ha).trans (Memory.read_cons_self a w m'))
      have hrest : ∀ c < 4096, Memory.read m c = Memory.read m' c := fun c hc => by
        by_cases hca : c = a
        · subst hca
          rw [Memory.read_below htail (Nat.lt_succ_self c), Memory.read_below htail' (Nat.lt_succ_self c)]
        · simpa only [Memory.read_cons_of_ne _ _ hca] using hread c hc
      rw [Memory.eq_of_wfFrom_of_read_eq htail htail' hrest]
    · exact absurd (hread b hb).symm (Memory.read_head_ne h' (Memory.wfFrom_cons_iff.2 ⟨hba, ha, hv, htail⟩))

/-- Settles O42, by induction on both lists: a first difference would show at the lower of the two first addresses. -/
theorem canonicalMemoriesThatReadAlikeAreEqual : Obligations.CanonicalMemoriesThatReadAlikeAreEqual :=
  fun _ _ h h' hread => Memory.eq_of_wfFrom_of_read_eq h h' hread

end Sys2Proof.Machine
end

section
/-! Steps of a given instruction, and the host's SET_KEY, RESET and LOAD (spec/95_test_vectors.md S3;
spec/44_keypad_timers.md R196; spec/60_exceptions.md R222; spec/70_reset_and_hazards.md R240 to R243). -/

namespace Sys2Proof.Machine

open Sys2Proof.Safety

/-! ### Steps of one instruction -/

/-- Settles O52: the pre-advance and the step back cancel. -/
theorem waitKeySpinsWithoutAnEdge : Obligations.WaitKeySpinsWithoutAnEdge := by
  intro s x hruns h
  have none_edge : firstRisingEdge (preAdvance s) = none := firstRisingEdge_eq_none_of_snapshot h
  have back : (preAdvance s).setPC ((preAdvance s).PC - 2#16) = s := by
    rw [show (preAdvance s).PC - 2#16 = s.PC from instrAddress_preAdvance s]
    rfl
  rw [step_runs hruns, exec_waitKey_none x none_edge, back]

/-- Settles O25: the return pops the slot the call pushed, which holds the address after the call. -/
theorem callThenReturnComesBack : Obligations.CallThenReturnComesBack := by
  intro s t nnn hcall hsp hstep hret
  obtain ⟨slots, sp, target, e, hsp1, -, hslots⟩ := (callPushesThePostAdvancePc (preAdvance s) nnn).2 (by
    rw [preAdvance_SP]
    omega)
  obtain rfl := Host.Outcome.next.inj (e.symm.trans ((step_runs hcall).symm.trans hstep))
  rw [preAdvance_SP] at hsp1
  have hj : s.SP.toNat + 1 < 16 := by omega
  obtain ⟨sp', e', hsp'⟩ := (returnPopsTheTopSlot (preAdvance { preAdvance s with
    SP := sp, stack := slots, PC := target })).2 ⟨s.SP.toNat + 1, hj⟩ hsp1.symm fun h =>
      Nat.succ_ne_zero _ (congrArg Fin.val h)
  obtain rfl : sp' = s.SP := BitVec.eq_of_toNat_eq (Nat.succ_injective (hsp'.trans hsp1))
  refine ⟨slots, ((step_runs hret).trans e').trans ?_, hslots⟩
  have htop : slots[s.SP.toNat + 1] = s.PC + 2#16 := (hslots ⟨s.SP.toNat + 1, hj⟩).trans (if_pos rfl)
  simp only [preAdvance_stack, Fin.getElem_fin, htop]
  rfl

/-! ### The host's commands -/

/-- Settles O55: the key written is `State.setKeys_get`. -/
theorem setKeyWritesOneKey : Obligations.SetKeyWritesOneKey := by
  intro s k down rest hp
  exact ⟨(s.setKeys k down).keys, step_of_command hp, fun j => s.setKeys_get k j down⟩

theorem step_of_pending_reset {s : State} {rest : List Command} (h : s.pending = .reset :: rest) :
    step s = .next (resetCommand (s.setPending rest)) := step_of_command h

theorem unlisted_font {a : Nat} (h : a < 0x50) : some (Memory.unlisted a) = font[a]? := by
  have hlen : a < font.length := h
  rw [Memory.unlisted, List.getD_eq_getElem _ _ hlen, List.getElem?_eq_getElem hlen]

theorem unlisted_above_font {a : Nat} (h : 0x50 ≤ a) : Memory.unlisted a = 0#8 :=
  List.getD_eq_default _ _ h

/-- Settles O56: each component is that of `State.reset`, but for the draw and the host's own two. -/
theorem resetSetsEveryComponent : Obligations.ResetSetsEveryComponent := by
  intro s rest hp
  refine ⟨_, step_of_pending_reset hp, fun a ha => unlisted_font ha, fun a ha => unlisted_above_font ha, fun r => ?_, rfl,
    rfl, rfl, rfl, rfl, blankDisplay_get, rfl, rfl, rfl, rfl⟩
  exact ⟨Vector.getElem_replicate r.isLt, Vector.getElem_replicate r.isLt, Vector.getElem_replicate r.isLt,
    Vector.getElem_replicate r.isLt⟩

/-- Settles O57: on the state RESET leaves, the image is a run of bytes written from 0x200 on. -/
theorem loadCopiesTheImageAfterReset : Obligations.LoadCopiesTheImageAfterReset := by
  intro s image rest hp
  have hstep : step s = .next (loadCommand image (s.setPending rest)) := step_of_command hp
  constructor
  · intro h
    exact ⟨by rw [hstep, loadCommand_of_tooLarge h]; rfl, if_pos ((imageTooLarge_iff image).2 h)⟩
  · intro h
    let t := resetCommand (s.setPending rest)
    exact ⟨t, t.mem.writeBytes 0x200 image, step_of_pending_reset rfl, by rw [hstep, loadCommand_of_fits h]; rfl,
      if_neg (mt (imageTooLarge_iff image).1 (Nat.not_lt.2 h)), fun k hk => Memory.read_writeBytes_inside _ _ _ hk,
      fun a ha => Memory.read_writeBytes_outside _ _ _ ha⟩

end Sys2Proof.Machine
end
